-- ==== Sys2Proof/Word.lean ====
section
/-! DEFINITION. The 32-bit word of CORE: one memory cell, one register, one instruction cell (00_scope R4, R5, R6). -/

namespace Sys2Proof

/-- A 32-bit pattern: RS_XLEN and LS_XLEN are both 32 (R4, R5). It has two readings, `u32` and `s32`
(Machine/Operands.lean); it is not four bytes (20_memory R65). -/
abbrev Word := BitVec 32

end Sys2Proof
end

