-- ==== Sys2Proof/Config.lean ====
section
/-! DEFINITION. The sizes and fixed values of the two cores: 00_scope R4 and R5. The parameters that spec/92 marks OPEN with a
default stand in Sys2Proof/Machine/Params.lean. -/

namespace Sys2Proof.Config

/-- `RS_CAP` (R4): the RS core's memory has the cells 0 to 1023. -/
def rsCap : Nat := 1024

/-- `RS_NREG` (R4). -/
abbrev rsNReg : Nat := 4

/-- `LS_CAP` (R5): the LS core's memory has the cells 0 to 4095. -/
def lsCap : Nat := 4096

/-- `LS_WORDSIZE` (R5): bytes per cell in the LS core's program counter. -/
def lsWordSize : Nat := 4

/-- `LS_END` (R5): the first byte address past the LS core's memory, 16384. -/
def lsEnd : Nat := lsCap * lsWordSize

/-- `LS_NREG` (R5). -/
abbrev lsNReg : Nat := 32

/-- `ENTRY` (R4, R5): where `pc` stands after reset and start, in both cores. -/
def entry : Word := 0

/-- `LS_OPMASK` (R5): the opcode bits of an LS word. -/
def lsOpMask : Word := 0xFC000000

/-- `LS_HIGHMASK` (R5): the bits of `pc` that a jump keeps. -/
def lsHighMask : Word := 0xF0000000

/-- `LS_SENTINEL` (R5): the word that ends an LS run. -/
def lsSentinel : Word := 0

@[simp] theorem rsCap_eq : rsCap = 1024 := rfl
@[simp] theorem lsCap_eq : lsCap = 4096 := rfl
@[simp] theorem lsWordSize_eq : lsWordSize = 4 := rfl
@[simp] theorem lsEnd_eq : lsEnd = 16384 := rfl

end Sys2Proof.Config
end

