-- ==== Sys2Proof/Machine/Params.lean ====
section
/-! DEFINITION. The parameters that spec/92_eei_decisions.md marks OPEN with a default value, each at its default (log entry 4):
the RS opcode numbers (D2), the LS match values (D17), the initial stack pointer (D6), the pop sentinel (D15). -/

namespace Sys2Proof.Machine

/-- `OPC_NOP` (R4, R93). -/
def opcNop : Word := 0
/-- `OPC_LDI` (R4, R93). -/
def opcLdi : Word := 1
/-- `OPC_ADD` (R4, R93). -/
def opcAdd : Word := 2
/-- `OPC_SUB` (R4, R93). -/
def opcSub : Word := 3
/-- `OPC_MUL` (R4, R93). -/
def opcMul : Word := 4
/-- `OPC_JMP` (R4, R93). -/
def opcJmp : Word := 5
/-- `OPC_HLT` (R4, R93). -/
def opcHlt : Word := 6
/-- `OPC_PUSH` (R4, R93). -/
def opcPush : Word := 7
/-- `OPC_POP` (R4, R93). -/
def opcPop : Word := 8
/-- `OPC_CALL` (R4, R93), reserved (R170). -/
def opcCall : Word := 9
/-- `OPC_RET` (R4, R93), reserved (R171). -/
def opcRet : Word := 10

/-- `LS_MATCH_ADDI` (R5, R100; conflict C1). -/
def lsMatchAddi : Word := 0x20000000
/-- `LS_MATCH_J` (R5, R100; conflict C1). -/
def lsMatchJ : Word := 0x0C000000

/-- `SP_INIT` (R4; conflict C6): the empty stack's pointer, one past the last cell. -/
def spInit : Word := 1024

/-- `POP_SENTINEL` (R4): the value a failed pop returns, −1. -/
def popSentinel : Word := 0xFFFFFFFF

end Sys2Proof.Machine
end

