-- ==== Sys2Proof/Syntax.lean ====
section
/-! DEFINITION. The instructions of both cores: one constructor of `Instr` per row of spec/opcode_table.json (30_encoding R91, R93,
R101, R102, R104, R105), and the two cores they belong to (00_scope R1). -/

namespace Sys2Proof

/-- The two configurations of CORE (R1). -/
inductive CoreKind where
  /-- the Register-Stack core -/
  | rs
  /-- the Load-Store core -/
  | ls
deriving DecidableEq, Repr

/-- The two kinds of RS operand cell (R94). -/
inductive OperandKind where
  /-- the cell is a register index, checked before execution (R95, R124) -/
  | registerRef
  /-- the cell is a literal (R96) -/
  | immediate
deriving DecidableEq, Repr

/-- An instruction of either core. An RS operand is the whole 32-bit operand cell, a register operand too: whether it names a
register is checked when the instruction executes (R95, R124; log entry 8). -/
inductive Instr where
  /-- RS NOP, R140 -/
  | nop
  /-- RS LDI, R141 -/
  | ldi (dst imm : Word)
  /-- RS ADD, R142 -/
  | add (dst a b : Word)
  /-- RS SUB, R143 -/
  | sub (dst a b : Word)
  /-- RS MUL, R144 -/
  | mul (dst a b : Word)
  /-- RS JMP, R150 -/
  | jmp (target : Word)
  /-- RS HLT, R151 -/
  | hlt
  /-- RS PUSH, R162: the operand is a literal, not a register -/
  | push (value : Word)
  /-- RS POP, R163 -/
  | pop (dst : Word)
  /-- RS CALL, reserved, R170 -/
  | call
  /-- RS RET, reserved, R171 -/
  | ret
  /-- RS, every other opcode cell, R172 -/
  | unknown (op : Word)
  /-- LS, the all-zero word, R104, R178 -/
  | sentinel
  /-- LS immediate-arithmetic form, R101, R180 -/
  | addi (src dst : BitVec 5) (imm : BitVec 16)
  /-- LS jump form, R102, R181 -/
  | j (target : BitVec 26)
  /-- LS, every other nonzero word, R105, R182 -/
  | unrecognised (w : Word)
deriving DecidableEq, Repr

/-- The core whose instruction set an instruction belongs to (R1). -/
def Instr.core : Instr → CoreKind
  | .nop => .rs
  | .ldi _ _ => .rs
  | .add _ _ _ => .rs
  | .sub _ _ _ => .rs
  | .mul _ _ _ => .rs
  | .jmp _ => .rs
  | .hlt => .rs
  | .push _ => .rs
  | .pop _ => .rs
  | .call => .rs
  | .ret => .rs
  | .unknown _ => .rs
  | .sentinel => .ls
  | .addi _ _ _ => .ls
  | .j _ => .ls
  | .unrecognised _ => .ls

end Sys2Proof
end

