-- ==== Sys2Proof/Machine/State.lean ====
section
/-! DEFINITION. The state of both cores, as plain data: 10_state R20 and R30, the values after construction and reset: R36 to R39,
and the reasons the host's port can turn a transaction away. -/

namespace Sys2Proof.Machine

/-- The run loop's states (R27, R35). -/
inductive RunState where
  | idle
  | running
  | halted
deriving DecidableEq, Repr

/-- The fault codes of the RS fault record (R20, R26). -/
inductive FaultCode where
  | none
  | unknownOpcode
  | stackOverflow
  | stackUnderflow
  | addressOutOfRange
  | registerIndexOutOfRange
deriving DecidableEq, Repr

/-- A memory array, by cell address: (address, cell) pairs, addresses strictly rising, no cell listed that holds what an
unlisted cell reads as (`Memory.wf`, Machine/Ops.lean). The cell, not the byte, is the unit of every access (R65; log entry 2). -/
abbrev Memory := List (Nat × Word)

/-- The RS core: the tuple of R20 and nothing else. -/
structure RsState where
  /-- `mem`, cells 0 to 1023 (R21) -/
  mem : Memory
  /-- `x[0..3]` (R22) -/
  x : Vector Word Config.rsNReg
  /-- counts cells (R23) -/
  pc : Word
  /-- the last pushed cell, 1024 when the stack is empty (R24) -/
  sp : Word
  /-- R25 -/
  running : Bool
  /-- R27 -/
  runState : RunState
  /-- R26 -/
  faultCode : FaultCode
  /-- the faulting instruction's opcode cell (R26) -/
  faultPc : Word
  /-- R26 -/
  faultInfo : Word
deriving DecidableEq, Repr

/-- The LS core: the tuple of R30 and nothing else. -/
structure LsState where
  /-- `mem`, cells 0 to 4095 (R31) -/
  mem : Memory
  /-- `x[0..31]` (R32) -/
  x : Vector Word Config.lsNReg
  /-- counts bytes (R33) -/
  pc : Word
  /-- R34 -/
  running : Bool
  /-- R35 -/
  runState : RunState
deriving DecidableEq, Repr

/-- One instance of each core, which share nothing (R1, R8), and the one the host's `step` is called on. -/
structure State where
  /-- the instance a step runs on: the MODEL's own field, written by no step (log entry 1) -/
  sel : CoreKind
  /-- the RS instance -/
  rs : RsState
  /-- the LS instance -/
  ls : LsState
deriving DecidableEq, Repr

/-- What a host transaction can fail with. No `step` answers with a fault: every fault of the spec is an entry into the fault
record, a next state (R126, R209). -/
inductive Fault where
  /-- Raised by the host's `loadWord` and `loadImage` for a cell index outside [0, capacity) (R79): the port reports the error and
  nothing is written. Safe: the load is turned away, as the spec says. -/
  | hostAddressOutOfRange (address : Nat)
deriving DecidableEq, Repr

/-- What the model turns away. No `step` answers with a refusal. -/
inductive Refusal where
  /-- Raised by an arm of `exec` whose instruction has no meaning yet: there is none. Safe. -/
  | notModelled (mnemonic : String)
  /-- Raised by the host port for `loadWord` or `loadImage` while a run is in progress, which R81 does not allow. Safe: a host
  that breaks its duty is outside the model (R81, D27). -/
  | hostWriteDuringRun
deriving DecidableEq, Repr

/-- The RS core after construction (R36, R230). -/
def RsState.constructed : RsState where
  mem := []
  x := #v[0, 0, 0, 0]
  pc := 0
  sp := spInit
  running := false
  runState := .idle
  faultCode := .none
  faultPc := 0
  faultInfo := 0

/-- The LS core after construction (R37, R230). -/
def LsState.constructed : LsState where
  mem := []
  x := #v[0, 0, 0, 0, 0, 0, 0, 0, 0, 0, 0, 0, 0, 0, 0, 0, 0, 0, 0, 0, 0, 0, 0, 0, 0, 0, 0, 0, 0, 0, 0, 0]
  pc := 0
  running := false
  runState := .idle

/-- A freshly constructed RS core right after the host's `reset` (R38, R231, R236). -/
def RsState.afterReset : RsState where
  mem := []
  x := #v[0, 0, 0, 0]
  pc := Config.entry
  sp := spInit
  running := true
  runState := .running
  faultCode := .none
  faultPc := 0
  faultInfo := 0

/-- A freshly constructed LS core right after the host's `reset` (R39, R232, R236). -/
def LsState.afterReset : LsState where
  mem := []
  x := #v[0, 0, 0, 0, 0, 0, 0, 0, 0, 0, 0, 0, 0, 0, 0, 0, 0, 0, 0, 0, 0, 0, 0, 0, 0, 0, 0, 0, 0, 0, 0, 0]
  pc := Config.entry
  running := true
  runState := .running

/-- Both instances right after construction; the RS instance is the one stepped (log entry 1). -/
def State.constructed : State where
  sel := .rs
  rs := .constructed
  ls := .constructed

/-- Both instances right after construction and the host's `reset`; the RS instance is the one stepped (log entry 1). -/
def State.reset : State where
  sel := .rs
  rs := .afterReset
  ls := .afterReset

end Sys2Proof.Machine
end

