-- ==== Sys2Proof/Machine/Operands.lean ====
section
/-! DEFINITION. The readings of a word, and every operand form: 00_scope R6 and R7, 30_encoding R95, R96, R103. -/

namespace Sys2Proof.Machine

/-- `u32(p)` (R6). -/
def u32 (p : Word) : Nat := p.toNat

/-- `s32(p)` (R6). -/
def s32 (p : Word) : Int := p.toInt

/-- `wrap32(n)` (R6): the pattern whose unsigned reading is `n` modulo 2^32. -/
def wrap32 (n : Int) : Word := BitVec.ofInt 32 n

/-- `sext_32(v16)` (R7). -/
def sext32 (v : BitVec 16) : Word := v.signExtend 32

/-- RS register-ref operand (R95): the whole word is the index, valid when its signed reading is 0 to 3; no bit is ignored. -/
def regIndex? (w : Word) : Option (Fin Config.rsNReg) :=
  if h : 0 ≤ s32 w ∧ s32 w ≤ 3 then some ⟨(s32 w).toNat, by
    have : (s32 w).toNat < 4 := by omega
    exact this⟩
  else none

/-- LS register field (R103): five bits, unsigned, every value a register. -/
def lsRegIndex (r : BitVec 5) : Fin Config.lsNReg := r.toFin

/-- `x[i]` of the RS core (R7, R22). -/
def RsState.reg (i : Fin Config.rsNReg) (s : RsState) : Word := s.x.get i

/-- `x[i] <- v` in the RS core (R7); no register is hardwired (R22). -/
def RsState.setReg (i : Fin Config.rsNReg) (v : Word) (s : RsState) : RsState :=
  { s with x := s.x.set i.val v i.isLt }

/-- `x[r]` of the LS core (R7, R32). -/
def LsState.reg (r : BitVec 5) (s : LsState) : Word := s.x.get (lsRegIndex r)

/-- `x[r] <- v` in the LS core (R7); `x[0]` is written like any other register (R32). -/
def LsState.setReg (r : BitVec 5) (v : Word) (s : LsState) : LsState :=
  { s with x := s.x.set (lsRegIndex r).val v (lsRegIndex r).isLt }

end Sys2Proof.Machine
end

