-- ==== Sys2Proof/Machine/Alu.lean ====
section
/-! DEFINITION. The `alu`: the RS core's three operations (41_rs_move_arith R142 to R145) and the LS core's two (45_ls_core R180,
R181, R184). -/

namespace Sys2Proof.Machine

/-- ADD (R142, R145): the signed sum, wrapped. -/
def rsAdd (va vb : Word) : Word := wrap32 (s32 va + s32 vb)

/-- SUB (R143, R145): first source minus second, wrapped. -/
def rsSub (va vb : Word) : Word := wrap32 (s32 va - s32 vb)

/-- MUL (R144, R145): the low 32 bits of the signed product. -/
def rsMul (va vb : Word) : Word := wrap32 (s32 va * s32 vb)

/-- The LS sum (R180, R184): unsigned, modulo 2^32. -/
def lsAdd (v : Word) (imm : BitVec 16) : Word := wrap32 (u32 v + u32 (sext32 imm) : Nat)

/-- The LS jump target (R103, R181), from the `pc` that fetch has already advanced (conflict C7). -/
def jumpTarget (pc : Word) (target : BitVec 26) : Word :=
  (pc &&& Config.lsHighMask) ||| (target.setWidth 32 <<< 2)

end Sys2Proof.Machine
end

