-- ==== Sys2Proof/WellFormed.lean ====
section
/-! DEFINITION. Which terms of `Instr` are instructions: an 'unknown' opcode is none of the eleven numbered ones (R93, R172), and an
'unrecognised' LS word is nonzero and carries neither match value (R105). Every other term is an instruction: all values of
its operands can be encoded. -/

namespace Sys2Proof

/-- The eleven opcode numbers of R93, the two reserved ones among them. -/
def numberedOpcodes : List Word :=
  [Machine.opcNop, Machine.opcLdi, Machine.opcAdd, Machine.opcSub, Machine.opcMul, Machine.opcJmp,
   Machine.opcHlt, Machine.opcPush, Machine.opcPop, Machine.opcCall, Machine.opcRet]

/-- R105: a nonzero word whose opcode bits select neither decoded form. -/
def isUnrecognisedWord (w : Word) : Bool :=
  w != Config.lsSentinel && w &&& Config.lsOpMask != Machine.lsMatchAddi
    && w &&& Config.lsOpMask != Machine.lsMatchJ

/-- A term of `Instr` that stands for some cells of memory. -/
def Instr.wellFormed : Instr → Bool
  | .nop => true
  | .ldi _ _ => true
  | .add _ _ _ => true
  | .sub _ _ _ => true
  | .mul _ _ _ => true
  | .jmp _ => true
  | .hlt => true
  | .push _ => true
  | .pop _ => true
  | .call => true
  | .ret => true
  | .unknown op => !numberedOpcodes.contains op
  | .sentinel => true
  | .addi _ _ _ => true
  | .j _ => true
  | .unrecognised w => isUnrecognisedWord w

end Sys2Proof
end

