-- ==== Sys2Proof/Decode.lean ====
section
/-! DEFINITION. The decoders of both cores, total on any list of cells, and the encoder written from the same tables: 30_encoding R90
to R108. -/

namespace Sys2Proof

open Sys2Proof.Machine Sys2Proof.Config

/-- Why a list of cells is not (yet) an instruction. No opcode value is ever rejected: an RS opcode with no entry decodes to
`unknown` (R122), and an LS word with none to `unrecognised` (R105). -/
inductive DecodeError where
  /-- there is no opcode cell -/
  | noCell
  /-- the opcode needs more operand cells than there are (R90) -/
  | missingOperand
deriving DecidableEq, Repr

/-- Formats RS-I and RS-R (R91): one operand cell. -/
def takeOne (mk : Word → Instr) : List Word → Except DecodeError (Instr × List Word)
  | a :: rest => .ok (mk a, rest)
  | [] => .error .missingOperand

/-- Format RS-RI (R91): two operand cells, in order. -/
def takeTwo (mk : Word → Word → Instr) : List Word → Except DecodeError (Instr × List Word)
  | a :: b :: rest => .ok (mk a b, rest)
  | _ => .error .missingOperand

/-- Format RS-RRR (R91): three operand cells, in order. -/
def takeThree (mk : Word → Word → Word → Instr) : List Word → Except DecodeError (Instr × List Word)
  | a :: b :: c :: rest => .ok (mk a b c, rest)
  | _ => .error .missingOperand

/-- The RS decoder: the whole opcode cell is compared (R92, R93), and the opcode alone says how many operand cells follow and
what they are (R94, R98). -/
def decodeRs : List Word → Except DecodeError (Instr × List Word)
  | [] => .error .noCell
  | op :: ws =>
    if op = opcNop then .ok (.nop, ws)
    else if op = opcLdi then takeTwo .ldi ws
    else if op = opcAdd then takeThree .add ws
    else if op = opcSub then takeThree .sub ws
    else if op = opcMul then takeThree .mul ws
    else if op = opcJmp then takeOne .jmp ws
    else if op = opcHlt then .ok (.hlt, ws)
    else if op = opcPush then takeOne .push ws
    else if op = opcPop then takeOne .pop ws
    else if op = opcCall then .ok (.call, ws)
    else if op = opcRet then .ok (.ret, ws)
    else .ok (.unknown op, ws)

/-- `word[25:21]`, the source register field of format LS-I (R101). -/
def lsSrcField (w : Word) : BitVec 5 := w.extractLsb' 21 5

/-- `word[20:16]`, the destination register field of format LS-I (R101). -/
def lsDstField (w : Word) : BitVec 5 := w.extractLsb' 16 5

/-- `word[15:0]`, the immediate field of format LS-I (R101). -/
def lsImmField (w : Word) : BitVec 16 := w.extractLsb' 0 16

/-- `word[25:0]`, the target field of format LS-J (R102). -/
def lsTargetField (w : Word) : BitVec 26 := w.extractLsb' 0 26

/-- The LS decoder, R106: the zero word first, then the two decoded forms. -/
def decodeLs (w : Word) : Instr :=
  if w = lsSentinel then .sentinel
  else if w &&& lsOpMask = lsMatchAddi then .addi (lsSrcField w) (lsDstField w) (lsImmField w)
  else if w &&& lsOpMask = lsMatchJ then .j (lsTargetField w)
  else .unrecognised w

/-- The decoder of either core, from the cells that start at the instruction, with the cells left over. -/
def decode (c : CoreKind) (cells : List Word) : Except DecodeError (Instr × List Word) :=
  match c with
  | .rs => decodeRs cells
  | .ls =>
    match cells with
    | [] => .error .noCell
    | w :: rest => .ok (decodeLs w, rest)

/-- The cells of an instruction: R91 and R108's table for RS, R101, R102 and R108 for LS. -/
def encode : Instr → List Word
  | .nop => [opcNop]
  | .ldi dst imm => [opcLdi, dst, imm]
  | .add dst a b => [opcAdd, dst, a, b]
  | .sub dst a b => [opcSub, dst, a, b]
  | .mul dst a b => [opcMul, dst, a, b]
  | .jmp target => [opcJmp, target]
  | .hlt => [opcHlt]
  | .push value => [opcPush, value]
  | .pop dst => [opcPop, dst]
  | .call => [opcCall]
  | .ret => [opcRet]
  | .unknown op => [op]
  | .sentinel => [lsSentinel]
  | .addi src dst imm =>
    [lsMatchAddi ||| (src.setWidth 32 <<< 21) ||| (dst.setWidth 32 <<< 16) ||| imm.setWidth 32]
  | .j target => [lsMatchJ ||| target.setWidth 32]
  | .unrecognised w => [w]

/-- How many cells an instruction occupies (R90, R91; R99 for LS): what its fetch adds to an RS `pc` (R131). -/
def Instr.length : Instr → Nat
  | .nop => 1
  | .ldi _ _ => 3
  | .add _ _ _ => 4
  | .sub _ _ _ => 4
  | .mul _ _ _ => 4
  | .jmp _ => 2
  | .hlt => 1
  | .push _ => 2
  | .pop _ => 2
  | .call => 1
  | .ret => 1
  | .unknown _ => 1
  | .sentinel => 1
  | .addi _ _ _ => 1
  | .j _ => 1
  | .unrecognised _ => 1

/-- The longest instruction's length in cells (R90). -/
def maxLength : Nat := 4

/-- Cell `k` of an instruction whose bits are `w`: bits `32 k + 31` down to `32 k`, with every bit above `nbits` zero. -/
def tableCell (nbits w k : Nat) : Word := BitVec.ofNat 32 ((w % 2 ^ nbits) / 2 ^ (32 * k))

/-- The cells, up to the longest instruction's length, of an instruction whose bits are `w`. -/
def tableCells (nbits w : Nat) : List Word :=
  [tableCell nbits w 0, tableCell nbits w 1, tableCell nbits w 2, tableCell nbits w 3]

/-- Which core's decoder reads a word given without a core: the LS core for a word of one of the two decoded LS forms, the RS
core (the one selected at reset) for every other. The same word means different things to the two cores: log entry 10. -/
def tableCore (first : Word) : CoreKind :=
  match decodeLs first with
  | .addi _ _ _ => .ls
  | .j _ => .ls
  | _ => .rs

/-- The instruction the decoder reads from an instruction whose bits are `w`, numbered as spec/opcode_table.json numbers them. -/
def decodeTableWord (nbits w : Nat) : Option Instr :=
  match decode (tableCore (tableCell nbits w 0)) (tableCells nbits w) with
  | .ok (i, _) => some i
  | .error _ => none

end Sys2Proof
end

