-- ==== Sys2Proof/Machine/Flags.lean ====
section
/-! DEFINITION. The only flag of either core is the running flag, with the run loop's state beside it: 10_state R25, R27, R28, R34,
R35. There is no status flag, condition code or predicate (R28), so no instruction computes one. -/

namespace Sys2Proof.Machine

/-- `halt` on the RS core (R7): a normal termination, the fault record unchanged (R207). -/
def RsState.halt (s : RsState) : RsState := { s with running := false, runState := .halted }

/-- `halt` on the LS core (R7, R178). -/
def LsState.halt (s : LsState) : LsState := { s with running := false, runState := .halted }

/-- The running flag of the instance the host steps: what `step` returns (R128, R183). -/
def State.isRunning (s : State) : Bool :=
  match s.sel with
  | .rs => s.rs.running
  | .ls => s.ls.running

/-- The numeric fault codes (R26, R200). -/
def FaultCode.number : FaultCode → Nat
  | .none => 0
  | .unknownOpcode => 1
  | .stackOverflow => 2
  | .stackUnderflow => 3
  | .addressOutOfRange => 4
  | .registerIndexOutOfRange => 5

end Sys2Proof.Machine
end

