-- ==== Sys2Proof/Machine/Ops.lean ====
section
/-! DEFINITION. The named operations over memory, registers and control state: 20_memory R62 to R64; the fault commit, the ONE
operation that takes a fault (40_rs_step R126, 60_exceptions R209); the host's `reset` and `start`, the only way out of a halt
(R210, 70_reset_and_hazards R231 to R233); the push and pop helpers (43_rs_stack R160, R161). -/

namespace Sys2Proof.Machine

/-! ### The memory array -/

/-- What a cell that is not listed holds: construction's zero (R36, R37; log entry 3). -/
def Memory.unlisted : Word := 0

/-- `mem[a]`. -/
def Memory.read : Memory → Nat → Word
  | [], _ => Memory.unlisted
  | (b, v) :: rest, a => if a = b then v else Memory.read rest a

/-- No entry for cell `a`. -/
def Memory.erase (m : Memory) (a : Nat) : Memory := m.filter fun e => e.1 != a

/-- An entry put before the first one with a greater address. -/
def Memory.insert : Memory → Nat → Word → Memory
  | [], a, v => [(a, v)]
  | (b, u) :: rest, a, v => if a < b then (a, v) :: (b, u) :: rest else (b, u) :: Memory.insert rest a v

/-- `mem[a] <- v`, keeping the canonical form: the unlisted value is never listed. -/
def Memory.write (m : Memory) (a : Nat) (v : Word) : Memory :=
  if v = Memory.unlisted then m.erase a else (m.erase a).insert a v

/-- `mem[a] <- w0, mem[a+1] <- w1, …`. -/
def Memory.writeAll : Memory → Nat → List Word → Memory
  | m, _, [] => m
  | m, a, w :: ws => Memory.writeAll (m.write a w) (a + 1) ws

/-- The canonical form from address `lo` on: strictly rising addresses below the capacity, no listed cell holding the
unlisted value. -/
def Memory.wfFrom (cap : Nat) : Nat → Memory → Bool
  | _, [] => true
  | lo, (a, v) :: rest => decide (lo ≤ a) && decide (a < cap) && v != Memory.unlisted && Memory.wfFrom cap (a + 1) rest

/-- The canonical form of a memory of `cap` cells (R20, R30). -/
def Memory.wf (cap : Nat) (m : Memory) : Bool := Memory.wfFrom cap 0 m

/-! ### Taking a fault, and the way back -/

/-- The fault commit `raise F(info)` (R126): the record, the running flag and the run state, and nothing else. -/
def RsState.raise (opcAddr : Word) (code : FaultCode) (info : Word) (s : RsState) : RsState :=
  { s with faultCode := code, faultPc := opcAddr, faultInfo := info, running := false, runState := .halted }

/-- The host's `reset()` on the RS core (R231): memory is unchanged. -/
def RsState.hostReset (s : RsState) : RsState :=
  { s with
    x := #v[0, 0, 0, 0], pc := Config.entry, sp := spInit, running := true, runState := .running,
    faultCode := .none, faultPc := 0, faultInfo := 0 }

/-- The host's `reset()` on the LS core (R232): memory is unchanged. -/
def LsState.hostReset (s : LsState) : LsState :=
  { s with
    x := Vector.replicate Config.lsNReg 0, pc := Config.entry, running := true, runState := .running }

/-- The host's `start` on the RS core (R233): registers, memory and `sp` are unchanged. -/
def RsState.start (s : RsState) : RsState :=
  { s with
    pc := Config.entry, running := true, runState := .running,
    faultCode := .none, faultPc := 0, faultInfo := 0 }

/-- The host's `start` on the LS core (R233): registers and memory are unchanged. -/
def LsState.start (s : LsState) : LsState :=
  { s with pc := Config.entry, running := true, runState := .running }

/-! ### The program counter -/

/-- RS `pc` after `n` fetched cells (R23). -/
def RsState.advance (n : Nat) (s : RsState) : RsState := { s with pc := s.pc + BitVec.ofNat 32 n }

/-- LS `pc` after the fetch of one word (R33, R177). -/
def LsState.advance (s : LsState) : LsState := { s with pc := s.pc + BitVec.ofNat 32 Config.lsWordSize }

/-! ### Checked accesses of the RS core -/

/-- `MemRead(a, 1)` (R62): `none` where it would raise `AddressOutOfRange(a)`. -/
def RsState.memRead (a : Word) (s : RsState) : Option Word :=
  if Config.rsCap ≤ a.toNat then none else some (s.mem.read a.toNat)

/-- `MemWrite(a, 1, v)` (R63), on behalf of the instruction whose opcode cell is at `opcAddr`. -/
def RsState.memWrite (opcAddr a v : Word) (s : RsState) : RsState :=
  if Config.rsCap ≤ a.toNat then s.raise opcAddr .addressOutOfRange a
  else { s with mem := s.mem.write a.toNat v }

/-- The register-index check of one register-ref operand (R124): the instruction goes on with the index, or the operand word is
reported and nothing else is written. -/
def RsState.withRegister (opcAddr w : Word) (s : RsState) (next : Fin Config.rsNReg → RsState) : RsState :=
  match regIndex? w with
  | some i => next i
  | none => s.raise opcAddr .registerIndexOutOfRange w

/-! ### The stack pointer's helpers -/

/-- `push(value)` (R160): the overflow test, then the decrement, then the write. -/
def RsState.push (opcAddr value : Word) (s : RsState) : RsState :=
  if s.sp = 0 then s.raise opcAddr .stackOverflow opcPush
  else RsState.memWrite opcAddr (s.sp - 1) value { s with sp := s.sp - 1 }

/-- `pop() -> value` (R161): on underflow the fault is committed and the sentinel still handed back; else the read comes before
the increment. -/
def RsState.pop (opcAddr : Word) (s : RsState) : Word × RsState :=
  if Config.rsCap ≤ s.sp.toNat then (popSentinel, s.raise opcAddr .stackUnderflow opcPop)
  else (s.mem.read s.sp.toNat, { s with sp := s.sp + 1 })

/-! ### Shapes that several instructions share -/

/-- An RS instruction's whole effect on the pair of instances: the LS instance and the selection are untouched (R1). -/
def State.nextRs (s : State) (t : RsState) : Host.Outcome State Fault Refusal := .next { s with rs := t }

/-- An LS instruction's whole effect on the pair of instances. -/
def State.nextLs (s : State) (t : LsState) : Host.Outcome State Fault Refusal := .next { s with ls := t }

/-- ADD, SUB, MUL (R142 to R146): four cells; the checks in the order dst, a, b; both sources read before the write. -/
def RsState.arith (op : Word → Word → Word) (dst a b : Word) (s : RsState) : RsState :=
  let s1 := s.advance 4
  s1.withRegister s.pc dst fun d =>
    s1.withRegister s.pc a fun i =>
      s1.withRegister s.pc b fun k =>
        s1.setReg d (op (s1.reg i) (s1.reg k))

/-- CALL, RET and every opcode with no entry in the decoder (R122, R170 to R172): one cell, then `UnknownOpcode(op)`. -/
def RsState.unknownOpcode (op : Word) (s : RsState) : RsState :=
  (s.advance 1).raise s.pc .unknownOpcode op

end Sys2Proof.Machine
end

