-- ==== Sys2Proof/Machine/LsCore.lean ====
section
/-! DEFINITION. LS core, the zero sentinel, ADDI, J and the unrecognised words: 45_ls_core. Each meaning takes the state whose `pc`
is the word's byte address and does the fetch's advance by 4 first (R177). -/

namespace Sys2Proof.Machine

/-- R178: `pc` stays advanced. -/
def execSentinel (s : State) : Host.Outcome State Fault Refusal := s.nextLs s.ls.advance.halt

/-- R180. -/
def execAddi (src dst : BitVec 5) (imm : BitVec 16) (s : State) : Host.Outcome State Fault Refusal :=
  let s1 := s.ls.advance
  s.nextLs (s1.setReg dst (lsAdd (s1.reg src) imm))

/-- R181. -/
def execJ (target : BitVec 26) (s : State) : Host.Outcome State Fault Refusal :=
  let s1 := s.ls.advance
  s.nextLs { s1 with pc := jumpTarget s1.pc target }

/-- R182: the word is passed over, whatever it is. -/
def execUnrecognised (_w : Word) (s : State) : Host.Outcome State Fault Refusal := s.nextLs s.ls.advance

end Sys2Proof.Machine
end

