-- ==== Sys2Proof/Machine/RsControl.lean ====
section
/-! DEFINITION. RS core, JMP and HLT: 42_rs_control. -/

namespace Sys2Proof.Machine

/-- R150: the operand word, bit for bit, over the `pc` that the fetch had advanced; the target is checked at the next fetch
(R153). -/
def execJmp (target : Word) (s : State) : Host.Outcome State Fault Refusal :=
  s.nextRs { s.rs.advance 2 with pc := target }

/-- R151: a normal termination. -/
def execHlt (s : State) : Host.Outcome State Fault Refusal := s.nextRs (s.rs.advance 1).halt

end Sys2Proof.Machine
end

