-- ==== Sys2Proof/Machine/RsMoveArith.lean ====
section
/-! DEFINITION. RS core, NOP, LDI, ADD, SUB, MUL: 41_rs_move_arith. Each meaning takes the state whose `pc` is the instruction's
opcode cell and does the whole instruction, the advance of `pc` over its cells too (40_rs_step R127, R131; log entry 5). -/

namespace Sys2Proof.Machine

/-- R140. -/
def execNop (s : State) : Host.Outcome State Fault Refusal := s.nextRs (s.rs.advance 1)

/-- R141. -/
def execLdi (dst imm : Word) (s : State) : Host.Outcome State Fault Refusal :=
  let s1 := s.rs.advance 3
  s.nextRs (s1.withRegister s.rs.pc dst fun d => s1.setReg d imm)

/-- R142. -/
def execAdd (dst a b : Word) (s : State) : Host.Outcome State Fault Refusal := s.nextRs (s.rs.arith rsAdd dst a b)

/-- R143. -/
def execSub (dst a b : Word) (s : State) : Host.Outcome State Fault Refusal := s.nextRs (s.rs.arith rsSub dst a b)

/-- R144. -/
def execMul (dst a b : Word) (s : State) : Host.Outcome State Fault Refusal := s.nextRs (s.rs.arith rsMul dst a b)

end Sys2Proof.Machine
end

