-- ==== Sys2Proof/Machine/RsReserved.lean ====
section
/-! DEFINITION. RS core, CALL, RET and every other opcode value: 44_rs_reserved. Each takes the fault `UnknownOpcode`. -/

namespace Sys2Proof.Machine

/-- R170: nothing is pushed and no operand is consumed. -/
def execCall (s : State) : Host.Outcome State Fault Refusal := s.nextRs (s.rs.unknownOpcode opcCall)

/-- R171: nothing is popped. -/
def execRet (s : State) : Host.Outcome State Fault Refusal := s.nextRs (s.rs.unknownOpcode opcRet)

/-- R172. -/
def execUnknown (op : Word) (s : State) : Host.Outcome State Fault Refusal := s.nextRs (s.rs.unknownOpcode op)

end Sys2Proof.Machine
end

