-- ==== Sys2Proof/Machine/RsStack.lean ====
section
/-! DEFINITION. RS core, PUSH and POP: 43_rs_stack. -/

namespace Sys2Proof.Machine

/-- R162: the literal operand word is pushed. -/
def execPush (value : Word) (s : State) : Host.Outcome State Fault Refusal :=
  s.nextRs ((s.rs.advance 2).push s.rs.pc value)

/-- R163: the index is checked before the stack is touched, and the sentinel lands in the destination on underflow. -/
def execPop (dst : Word) (s : State) : Host.Outcome State Fault Refusal :=
  let s1 := s.rs.advance 2
  s.nextRs (s1.withRegister s.rs.pc dst fun d => (s1.pop s.rs.pc).2.setReg d (s1.pop s.rs.pc).1)

end Sys2Proof.Machine
end

