-- ==== Sys2Proof/Machine/Dispatch.lean ====
section
/-! DEFINITION. The one dispatch: each constructor of `Instr` to its meaning. -/

namespace Sys2Proof.Machine

-- RS core first, in the opcode table's order, then the LS core.
def exec (i : Instr) (s : State) : Host.Outcome State Fault Refusal :=
  match i with
  | .nop => Sys2Proof.Machine.execNop s
  | .ldi dst imm => Sys2Proof.Machine.execLdi dst imm s
  | .add dst a b => Sys2Proof.Machine.execAdd dst a b s
  | .sub dst a b => Sys2Proof.Machine.execSub dst a b s
  | .mul dst a b => Sys2Proof.Machine.execMul dst a b s
  | .jmp target => Sys2Proof.Machine.execJmp target s
  | .hlt => Sys2Proof.Machine.execHlt s
  | .push value => Sys2Proof.Machine.execPush value s
  | .pop dst => Sys2Proof.Machine.execPop dst s
  | .call => Sys2Proof.Machine.execCall s
  | .ret => Sys2Proof.Machine.execRet s
  | .unknown op => Sys2Proof.Machine.execUnknown op s
  | .sentinel => Sys2Proof.Machine.execSentinel s
  | .addi src dst imm => Sys2Proof.Machine.execAddi src dst imm s
  | .j target => Sys2Proof.Machine.execJ target s
  | .unrecognised w => Sys2Proof.Machine.execUnrecognised w s

end Sys2Proof.Machine
end

