-- ==== Sys2Proof/Machine/Fetch.lean ====
section
/-! DEFINITION. The gate, the fetch and the decoder around an instruction: 40_rs_step R120 to R123, 45_ls_core R175 to R177; and how a
host places one instruction where the next step fetches. -/

namespace Sys2Proof.Machine

/-- What the front of a step comes to: the step ends there in a state, or an instruction executes. -/
inductive Fetched where
  /-- the step ends: the core is not running, the fetch faulted, or the LS `pc` is past the end -/
  | ended (t : State)
  /-- the decoded instruction -/
  | instr (i : Instr)
deriving DecidableEq, Repr

/-- The cells from `a` on, at most `n`, up to the end of memory: fetch's reads in ascending order (R73). Reading one has no
effect (R62, R67). -/
def RsState.cellsFrom (s : RsState) : Nat → Word → List Word
  | 0, _ => []
  | n + 1, a =>
    match s.memRead a with
    | some v => v :: RsState.cellsFrom s n (a + 1)
    | none => []

/-- The cells the next instruction may take. -/
def RsState.fetchCells (s : RsState) : List Word := s.cellsFrom maxLength s.pc

/-- A fetch with no cell to read (R121, R123): `pc` has moved over the cells that were there, and the first missing address is
reported, for the instruction whose opcode cell `pc` was. -/
def RsState.fetchFault (cells : Nat) (s : RsState) : RsState :=
  (s.advance cells).raise s.pc .addressOutOfRange (s.advance cells).pc

/-- The front of an RS step (R120 to R123). -/
def fetchRs (s : State) : Fetched :=
  if s.rs.running then
    match decode .rs s.rs.fetchCells with
    | .ok (i, _) => .instr i
    | .error _ => .ended { s with rs := s.rs.fetchFault s.rs.fetchCells.length }
  else .ended s

/-- The word the LS core fetches (R64, R66): the two low bits of `pc` select nothing. -/
def LsState.fetchWord (s : LsState) : Word := s.mem.read (s.pc >>> 2).toNat

/-- The front of an LS step (R175 to R177, R179). -/
def fetchLs (s : State) : Fetched :=
  if s.ls.running then
    if Config.lsEnd ≤ s.ls.pc.toNat then .ended { s with ls := s.ls.halt }
    else .instr (decodeLs s.ls.fetchWord)
  else .ended s

/-- The front of a step of the selected instance. -/
def fetch (s : State) : Fetched :=
  match s.sel with
  | .rs => fetchRs s
  | .ls => fetchLs s

/-- An RS core whose next step fetches `cells`: started by the host's `start` unless it is running with room for them at its
`pc` (log entry 11), the cells then stored from `pc` on. -/
def RsState.place (cells : List Word) (s : RsState) : RsState :=
  let s1 := if s.running && decide (s.pc.toNat + maxLength ≤ Config.rsCap) then s else s.start
  { s1 with mem := s1.mem.writeAll s1.pc.toNat cells }

/-- An LS core whose next step fetches `w`, in the same way. -/
def LsState.place (w : Word) (s : LsState) : LsState :=
  let s1 := if s.running && decide (s.pc.toNat < Config.lsEnd) then s else s.start
  { s1 with mem := s1.mem.write (s1.pc >>> 2).toNat w }

/-- The instruction whose bits are `w` placed in the instance that `decodeTableWord` reads it for, that instance selected. -/
def State.placeTableWord (nbits w : Nat) (s : State) : State :=
  match tableCore (tableCell nbits w 0) with
  | .rs => { s with sel := .rs, rs := s.rs.place (tableCells nbits w) }
  | .ls => { s with sel := .ls, ls := s.ls.place (tableCell nbits w 0) }

end Sys2Proof.Machine
end

