-- ==== Sys2Proof/Machine/Step.lean ====
section
/-! DEFINITION. One step of the selected instance: 40_rs_step R127, 45_ls_core R183. -/

namespace Sys2Proof.Machine

/-- One call of the host's `step` (R9). -/
def step (s : State) : Host.Outcome State Fault Refusal :=
  match fetch s with
  | .ended t => .next t
  | .instr i => exec i s

/-- The state whose next step fetches and runs the instruction whose bits are `w` (log entries 10 and 11). -/
def State.withFetchWord (s : State) (nbits w : Nat) : State := s.placeTableWord nbits w

end Sys2Proof.Machine
end

