-- ==== Sys2Proof/Machine/HostPort.lean ====
section
/-! DEFINITION. The host's transactions on the selected instance: 70_reset_and_hazards R230 to R233, R242; 20_memory R79 to R84;
40_rs_step R128 to R130; 45_ls_core R185. The host acts only between steps (R8). -/

namespace Sys2Proof.Machine

/-- `reset()` on the selected instance (R231, R232). -/
def State.hostReset (s : State) : State :=
  match s.sel with
  | .rs => { s with rs := s.rs.hostReset }
  | .ls => { s with ls := s.ls.hostReset }

/-- `start` on the selected instance (R233). -/
def State.start (s : State) : State :=
  match s.sel with
  | .rs => { s with rs := s.rs.start }
  | .ls => { s with ls := s.ls.start }

/-- The number of cells of the selected instance (R4, R5). -/
def State.capacity (s : State) : Nat :=
  match s.sel with
  | .rs => Config.rsCap
  | .ls => Config.lsCap

/-- The memory of the selected instance. -/
def State.memory (s : State) : Memory :=
  match s.sel with
  | .rs => s.rs.mem
  | .ls => s.ls.mem

/-- One cell of the selected instance written, with no check. -/
def State.poke (address : Nat) (value : Word) (s : State) : State :=
  match s.sel with
  | .rs => { s with rs := { s.rs with mem := s.rs.mem.write address value } }
  | .ls => { s with ls := { s.ls with mem := s.ls.mem.write address value } }

/-- `loadWord(address, value)` (R79): `address` is a cell index in both cores; outside [0, capacity) the port reports the error
and nothing is written. -/
def loadWord (address : Nat) (value : Word) (s : State) : Host.Outcome State Fault Refusal :=
  if address < s.capacity then .next (s.poke address value) else .fault (.hostAddressOutOfRange address)

/-- `loadImage`, from words already assembled: the sequence of `loadWord` to `base`, `base + 1`, … (R80; `IMAGE_BASE` is open,
D24). Every word whose cell is in range is written, and the first error of the sequence is what the port reports (log entry 13). -/
def loadImage : Nat → List Word → State → State × Option Fault
  | _, [], s => (s, none)
  | base, w :: ws, s =>
    match loadWord base w s with
    | .next t => loadImage (base + 1) ws t
    | .fault f => ((loadImage (base + 1) ws s).1, some f)
    | .refused _ => loadImage (base + 1) ws s

/-- Construction, the Loader's writes from cell 0, `reset`: the launch state of an instance of core `c` (R235, R236), with the
error the load reported, if any. -/
def State.launch (c : CoreKind) (image : List Word) : State × Option Fault :=
  ((loadImage 0 image { State.constructed with sel := c }).1.hostReset,
    (loadImage 0 image { State.constructed with sel := c }).2)

/-- The state after a call of `step`, which always answers with a next state (obligation EveryStepAnswersNext). -/
def State.stepped (s : State) : State :=
  match step s with
  | .next t => t
  | .fault _ => s
  | .refused _ => s

/-- What a call of `step` returns (R128, R183): the running flag at its end. -/
def State.stepReturns (s : State) : Bool := s.stepped.isRunning

/-- `run`, under fuel: `step` until not running, at most `n` times (R129, R185; R240; log entry 14). -/
def State.run : Nat → State → State
  | 0, s => s
  | n + 1, s => if s.isRunning then State.run n s.stepped else s

/-- The view that `snapshot` returns (R83), with the fault record (D25) and with `run_state`, which R83's own list does not name and
which R29, R217, R218 and R242 have the host read through it (log entry 16). -/
structure Snapshot where
  regs : List Word
  pc : Word
  /-- the RS core only -/
  sp : Option Word
  running : Bool
  runState : RunState
  /-- the first `SNAP_N` cells -/
  cells : List Word
  faultCode : FaultCode
  faultPc : Word
  faultInfo : Word
deriving DecidableEq, Repr

/-- The first `n` cells of a memory of `cap` cells, all of them where `n` is beyond the capacity: the model's choice (log entry 9). -/
def Memory.firstCells (cap n : Nat) (m : Memory) : List Word := (List.range (min n cap)).map m.read

/-- `snapshot()` with `SNAP_N` = `n` (R83; D25). It reads and never writes. The LS core has no fault record: the view shows the
constant `None` (R30, R206), with 0 and 0 beside it, which is the model's choice, as is the cut at the capacity (log entry 9). -/
def State.snapshot (n : Nat) (s : State) : Snapshot :=
  match s.sel with
  | .rs =>
    { regs := s.rs.x.toList, pc := s.rs.pc, sp := some s.rs.sp, running := s.rs.running,
      runState := s.rs.runState,
      cells := s.rs.mem.firstCells Config.rsCap n, faultCode := s.rs.faultCode, faultPc := s.rs.faultPc,
      faultInfo := s.rs.faultInfo }
  | .ls =>
    { regs := s.ls.x.toList, pc := s.ls.pc, sp := none, running := s.ls.running,
      runState := s.ls.runState,
      cells := s.ls.mem.firstCells Config.lsCap n, faultCode := .none, faultPc := 0, faultInfo := 0 }

/-- The views the Observer is handed during an RS run: one after every step, the one that ends the run among them (R84, R130). -/
def State.observedSteps (snapN : Nat) : Nat → State → List Snapshot
  | 0, _ => []
  | n + 1, s =>
    if s.isRunning then s.stepped.snapshot snapN :: State.observedSteps snapN n s.stepped else []

/-- The Observer's views of a run (R84): RS after every step; LS after the whole run, if it has completed. -/
def State.observedRun (snapN n : Nat) (s : State) : List Snapshot :=
  match s.sel with
  | .rs => s.observedSteps snapN n
  | .ls => if (s.run n).isRunning then [] else [(s.run n).snapshot snapN]

/-- The host's side of one instance: the core, and whether a run is in progress, that is, whether a step has been taken since
the last `reset` or `start` and the core still runs (R81). Host-side data, not state of a core (R42). -/
structure Session where
  core : State
  inRun : Bool
deriving DecidableEq, Repr

/-- The transactions of R242. -/
inductive Transaction where
  | reset
  | start
  | loadWord (address : Nat) (value : Word)
  | loadImage (base : Nat) (image : List Word)
  | step
  /-- `run`, with the fuel the host gives it -/
  | run (fuel : Nat)
  | snapshot (snapN : Nat)
deriving DecidableEq, Repr

/-- What a transaction returns (R242). -/
inductive Reply where
  | ok
  /-- the load's address error (R79) -/
  | error (f : Fault)
  /-- turned away by the model (R81) -/
  | turnedAway (r : Refusal)
  /-- the running flag after `step` or `run` (R128) -/
  | running (b : Bool)
  | view (v : Snapshot)
deriving DecidableEq, Repr

/-- A fresh session: construction (R230), `c` the instance it is about. -/
def Session.construct (c : CoreKind) : Session := { core := { State.constructed with sel := c }, inRun := false }

/-- What `loadWord` comes to for the host: on an error nothing at all has changed (R79). -/
def Session.loaded (s : Session) (o : Host.Outcome State Fault Refusal) : Session × Reply :=
  match o with
  | .next t => ({ s with core := t }, .ok)
  | .fault f => (s, .error f)
  | .refused r => (s, .turnedAway r)

/-- What `loadImage` comes to for the host: the words in range are written, and an error is reported beside them (R80). -/
def Session.loadedImage (s : Session) (r : State × Option Fault) : Session × Reply :=
  ({ s with core := r.1 }, match r.2 with
    | none => .ok
    | some f => .error f)

/-- One transaction (R242). `loadWord` and `loadImage` are turned away during a run (R81). -/
def Session.act (t : Transaction) (s : Session) : Session × Reply :=
  match t with
  | .reset => ({ core := s.core.hostReset, inRun := false }, .ok)
  | .start => ({ core := s.core.start, inRun := false }, .ok)
  | .loadWord a v => s.loaded (if s.inRun then .refused .hostWriteDuringRun else Sys2Proof.Machine.loadWord a v s.core)
  | .loadImage base ws =>
    if s.inRun then (s, .turnedAway .hostWriteDuringRun)
    else s.loadedImage (Sys2Proof.Machine.loadImage base ws s.core)
  | .step => ({ core := s.core.stepped, inRun := s.core.stepped.isRunning }, .running s.core.stepped.isRunning)
  | .run n =>
    ({ core := s.core.run n, inRun := (s.core.run n).isRunning && (s.inRun || n != 0) }, .running (s.core.run n).isRunning)
  | .snapshot n => (s, .view (s.core.snapshot n))

end Sys2Proof.Machine
end

