-- ==== Sys2Proof/Machine/Reference.lean ====
section
/-! DEFINITION. The two steps a second time, transcribed line by line from the pseudocode of 40_rs_step R127 and 45_ls_core R183,
with the pseudocode's own order of reads, checks and writes. `step` does not use this file: statements compare the two. -/

namespace Sys2Proof.Machine

open Config

/-- A line of the RS pseudocode either goes on or has ended the step (`raise … and return false`). -/
abbrev RsLine (α : Type) := Except RsState α

/-- The operand-shape table of R94: `none` where the decoder has no entry (R97, R122). -/
def rsShape (op : Word) : Option (List OperandKind) :=
  if op = opcNop then some []
  else if op = opcLdi then some [.registerRef, .immediate]
  else if op = opcAdd then some [.registerRef, .registerRef, .registerRef]
  else if op = opcSub then some [.registerRef, .registerRef, .registerRef]
  else if op = opcMul then some [.registerRef, .registerRef, .registerRef]
  else if op = opcJmp then some [.immediate]
  else if op = opcHlt then some []
  else if op = opcPush then some [.immediate]
  else if op = opcPop then some [.registerRef]
  else none

/-- One fetch of R121 and R123: the address test, the read, the advance by one. -/
def refFetchCell (opcAddr : Word) (s : RsState) : RsLine (Word × RsState) :=
  if rsCap ≤ s.pc.toNat then .error (s.raise opcAddr .addressOutOfRange s.pc)
  else .ok (s.mem.read s.pc.toNat, { s with pc := s.pc + 1 })

/-- The operand loop of R123. -/
def refFetchOperands (opcAddr : Word) : List OperandKind → RsState → RsLine (List Word × RsState)
  | [], s => .ok ([], s)
  | _ :: shape, s =>
    match refFetchCell opcAddr s with
    | .error t => .error t
    | .ok (w, s1) =>
      match refFetchOperands opcAddr shape s1 with
      | .error t => .error t
      | .ok (ws, s2) => .ok (w :: ws, s2)

/-- The register-index loop of R124: the first bad operand, in operand order. -/
def refBadRegister : List OperandKind → List Word → Option Word
  | .registerRef :: shape, w :: ws => if 0 ≤ s32 w ∧ s32 w ≤ 3 then refBadRegister shape ws else some w
  | .immediate :: shape, _ :: ws => refBadRegister shape ws
  | _, _ => none

/-- A register by its checked index word. -/
def refReg (w : Word) (s : RsState) : Word := s.x.toList.getD w.toNat 0

/-- A register written by its checked index word. -/
def refSetReg (w v : Word) (s : RsState) : RsState := { s with x := s.x.setIfInBounds w.toNat v }

/-- `push` of R160 and the body of R162. -/
def refPush (opcAddr value : Word) (s : RsState) : RsState :=
  if s.sp = 0 then s.raise opcAddr .stackOverflow opcPush
  else { s with sp := s.sp - 1, mem := s.mem.write (s.sp - 1).toNat value }

/-- `pop` of R161 and the body of R163. -/
def refPop (opcAddr dst : Word) (s : RsState) : RsState :=
  if rsCap ≤ s.sp.toNat then refSetReg dst popSentinel (s.raise opcAddr .stackUnderflow opcPop)
  else refSetReg dst (s.mem.read s.sp.toNat) { s with sp := s.sp + 1 }

/-- `execute(op, w)` (R125): the bodies of R140 to R144, R150, R151, R162, R163. -/
def refExecute (opcAddr op : Word) (w : List Word) (s : RsState) : RsState :=
  if op = opcLdi then refSetReg (w.getD 0 0) (w.getD 1 0) s
  else if op = opcAdd then refSetReg (w.getD 0 0) (refReg (w.getD 1 0) s + refReg (w.getD 2 0) s) s
  else if op = opcSub then refSetReg (w.getD 0 0) (refReg (w.getD 1 0) s - refReg (w.getD 2 0) s) s
  else if op = opcMul then refSetReg (w.getD 0 0) (refReg (w.getD 1 0) s * refReg (w.getD 2 0) s) s
  else if op = opcJmp then { s with pc := w.getD 0 0 }
  else if op = opcHlt then s.halt
  else if op = opcPush then refPush opcAddr (w.getD 0 0) s
  else if op = opcPop then refPop opcAddr (w.getD 0 0) s
  else s

/-- The RS step of R127, after the gate. -/
def refRsBody (s : RsState) : RsLine RsState := do
  let (op, s1) ← refFetchCell s.pc s
  match rsShape op with
  | none => .error (s1.raise s.pc .unknownOpcode op)
  | some shape =>
    let (w, s2) ← refFetchOperands s.pc shape s1
    match refBadRegister shape w with
    | some bad => .error (s2.raise s.pc .registerIndexOutOfRange bad)
    | none => .ok (refExecute s.pc op w s2)

/-- The RS step of R127. -/
def refRsStep (s : RsState) : RsState :=
  if s.running then
    match refRsBody s with
    | .ok t => t
    | .error t => t
  else s

/-- The LS step of R183. -/
def refLsStep (s : LsState) : LsState :=
  if s.running = false then s
  else if 16384 ≤ s.pc.toNat then { s with running := false, runState := .halted }
  else
    let w := s.mem.read (s.pc.toNat / 4)
    let s1 := { s with pc := s.pc + 4 }
    if w = 0 then { s1 with running := false, runState := .halted }
    else if w.extractLsb' 26 6 = 0b001000 then
      { s1 with
        x := s1.x.setIfInBounds (w.extractLsb' 16 5).toNat
          (s1.x.toList.getD (w.extractLsb' 21 5).toNat 0 + (w.extractLsb' 0 16).signExtend 32) }
    else if w.extractLsb' 26 6 = 0b000011 then
      { s1 with pc := s1.pc.extractLsb' 28 4 ++ (w.extractLsb' 0 26 ++ 0#2) }
    else s1

end Sys2Proof.Machine
end

