-- ==== Sys2Proof/Safety.lean ====
section
/-! DEFINITION. What the statements speak of: the invariants the spec names, how a run ends, what an instruction leaves alone, and the
states that differ only in registers. -/

namespace Sys2Proof.Machine

/-- The RS core's invariants: canonical memory of 1024 cells (R20, R21), `sp` at most 1024 (R24), `running` exactly in `Running`
(R27), a recorded fault only when not running (R26), and an all-zero record where there is none (R26's table). -/
structure RsState.Inv (s : RsState) : Prop where
  memWf : s.mem.wf Config.rsCap = true
  spLe : s.sp.toNat ≤ Config.rsCap
  runningIff : s.running = true ↔ s.runState = .running
  faultStops : s.faultCode ≠ .none → s.running = false
  noFaultZero : s.faultCode = .none → s.faultPc = 0 ∧ s.faultInfo = 0

/-- The LS core's invariants: canonical memory of 4096 cells (R30, R31), `running` exactly in `Running` (R35), `pc` a multiple
of 4 (R33). -/
structure LsState.Inv (s : LsState) : Prop where
  memWf : s.mem.wf Config.lsCap = true
  runningIff : s.running = true ↔ s.runState = .running
  pcAligned : s.pc.toNat % 4 = 0

/-- Both instances' invariants. -/
structure State.Inv (s : State) : Prop where
  rs : s.rs.Inv
  ls : s.ls.Inv

/-- A run of the selected instance has ended (R237). -/
def State.ended (s : State) : Bool := !s.isRunning

/-- A run has ended by a fault (R237): the RS core only (R206). -/
def State.faulted (s : State) : Bool := s.ended && (s.sel == .rs && s.rs.faultCode != .none)

/-- A run has ended normally (R207, R237). -/
def State.endedNormally (s : State) : Bool := s.ended && !s.faulted

/-- The fault record as a whole: code, address of the opcode cell, info (R26). -/
def RsState.faultRecord (s : RsState) : FaultCode × Word × Word := (s.faultCode, s.faultPc, s.faultInfo)

/-- The view shows what R83 and D25 list and `run_state` (R29, R217, R218) of the selected instance, with `snapN` cells: the
registers by index, `pc`, `sp` where there is one, the running flag, `run_state` (log entry 16), the fault record, and each of
the first cells. For the LS core, which has no record, R30 and R206 give the fault code `None`; the two zeros beside it, and that
the cells are cut at the capacity, are the model's choice (log entry 9). -/
structure Snapshot.Shows (v : Snapshot) (snapN : Nat) (s : State) : Prop where
  running : v.running = s.isRunning
  cellCount : v.cells.length = min snapN s.capacity
  cells : ∀ a, a < min snapN s.capacity → v.cells[a]? = some (s.memory.read a)
  rsRegs : s.sel = .rs → v.regs.length = 4 ∧ ∀ i : Fin Config.rsNReg, v.regs[i.val]? = some (s.rs.reg i)
  rsRest : s.sel = .rs → v.pc = s.rs.pc ∧ v.sp = some s.rs.sp ∧ v.runState = s.rs.runState ∧
    (v.faultCode, v.faultPc, v.faultInfo) = s.rs.faultRecord
  lsRegs : s.sel = .ls → v.regs.length = 32 ∧ ∀ r : BitVec 5, v.regs[r.toNat]? = some (s.ls.reg r)
  lsRest : s.sel = .ls → v.pc = s.ls.pc ∧ v.sp = none ∧ v.runState = s.ls.runState ∧
    (v.faultCode, v.faultPc, v.faultInfo) = (.none, 0, 0)

/-- The two states hold the same in everything but the RS registers. -/
def RsState.SameButRegs (s t : RsState) : Prop := { s with x := t.x } = t

/-- The two states hold the same in everything but the LS registers. -/
def LsState.SameButRegs (s t : LsState) : Prop := { s with x := t.x } = t

/-- The two states hold the same in everything but the registers of either core. -/
structure State.SameButRegs (s t : State) : Prop where
  sel : s.sel = t.sel
  rs : s.rs.SameButRegs t.rs
  ls : s.ls.SameButRegs t.ls

/-- Every cell reads as before. -/
def Memory.SameCells (m n : Memory) : Prop := ∀ a, Memory.read n a = Memory.read m a

/-- The cells of an instruction stand in memory from address `a` on. -/
def Memory.holds (m : Memory) : Nat → List Word → Bool
  | _, [] => true
  | a, w :: ws => m.read a == w && Memory.holds m (a + 1) ws

/-- What every RS instruction leaves alone: the LS instance and the selection (R1, R8). -/
structure State.SameOutsideRs (s t : State) : Prop where
  sel : t.sel = s.sel
  ls : t.ls = s.ls

/-- What every LS instruction leaves alone: the RS instance and the selection (R1, R8). -/
structure State.SameOutsideLs (s t : State) : Prop where
  sel : t.sel = s.sel
  rs : t.rs = s.rs

/-- The running flag, the run state and the fault record are as before. -/
structure RsState.SameControl (s t : RsState) : Prop where
  running : t.running = s.running
  runState : t.runState = s.runState
  faultCode : t.faultCode = s.faultCode
  faultPc : t.faultPc = s.faultPc
  faultInfo : t.faultInfo = s.faultInfo

/-- Registers, stack pointer and every memory cell are as before. -/
structure RsState.SameData (s t : RsState) : Prop where
  x : t.x = s.x
  sp : t.sp = s.sp
  mem : s.mem.SameCells t.mem

/-- Every register but `d` is as before. -/
def RsState.SameOtherRegs (d : Fin Config.rsNReg) (s t : RsState) : Prop := ∀ k, k ≠ d → t.reg k = s.reg k

/-- What a fault commit leaves (R126): the record of this fault, and a halted core. -/
structure RsState.Faulted (t : RsState) (code : FaultCode) (opcAddr info : Word) : Prop where
  faultCode : t.faultCode = code
  faultPc : t.faultPc = opcAddr
  faultInfo : t.faultInfo = info
  running : t.running = false
  runState : t.runState = .halted

/-- The operand word that names register `d`; the words that name a register are these four (R95). -/
def regWord (d : Fin Config.rsNReg) : Word := BitVec.ofNat 32 d.val

/-- R95's test on an operand word. -/
def isRegWord (w : Word) : Bool := decide (0 ≤ w.toInt) && decide (w.toInt ≤ 3)

/-- The first operand word, in operand order, that names no register (R124). -/
def firstBadWord (ws : List Word) : Option Word := ws.find? fun w => !isRegWord w

/-- What an RS instruction of `n` cells does when a register operand `w` names no register (R124, R205): the fault, `pc` past
the whole instruction, nothing else. -/
def RegisterFault (i : Instr) (n w : Word) (s : State) : Prop :=
  ∃ t, exec i s = .next t ∧ s.SameOutsideRs t ∧ s.rs.SameData t.rs ∧ t.rs.pc = s.rs.pc + n ∧
    t.rs.Faulted .registerIndexOutOfRange s.rs.pc w

/-- A running RS instance at whose `pc` the whole instruction stands runs it. -/
def RunsWhenFetched (i : Instr) : Prop :=
  ∀ s : State, s.sel = .rs → s.rs.running = true →
    s.rs.pc.toNat + (encode i).length ≤ Config.rsCap → s.rs.mem.holds s.rs.pc.toNat (encode i) = true →
    step s = exec i s

/-- A running RS instance with the opcode cell in memory and an operand cell past it faults at the first missing cell, and
nothing of the instruction has happened (R123). -/
def OperandFetchFaults (i : Instr) : Prop :=
  ∀ s : State, s.sel = .rs → s.rs.running = true →
    s.rs.pc.toNat < Config.rsCap → Config.rsCap < s.rs.pc.toNat + (encode i).length →
    (encode i).head? = some (s.rs.mem.read s.rs.pc.toNat) →
    ∃ t, step s = .next t ∧ s.SameOutsideRs t ∧ s.rs.SameData t.rs ∧ t.rs.pc = 1024 ∧
      t.rs.Faulted .addressOutOfRange s.rs.pc 1024

/-- A running RS instance whose `pc` is past memory faults, whatever instruction was meant (R121). -/
def OpcodeFetchFaults : Prop :=
  ∀ s : State, s.sel = .rs → s.rs.running = true → Config.rsCap ≤ s.rs.pc.toNat →
    ∃ t, step s = .next t ∧ s.SameOutsideRs t ∧ s.rs.SameData t.rs ∧ t.rs.pc = s.rs.pc ∧
      t.rs.Faulted .addressOutOfRange s.rs.pc s.rs.pc

/-- The rule of ADD, SUB and MUL (R142 to R144) for an opcode number and an exact integer operation. -/
def ArithRule (mk : Word → Word → Word → Instr) (opcode : Word) (f : Int → Int → Int) : Prop :=
  (∀ dst a b, encode (mk dst a b) = [opcode, dst, a, b] ∧ RunsWhenFetched (mk dst a b) ∧
    OperandFetchFaults (mk dst a b)) ∧ OpcodeFetchFaults ∧
  (∀ (d a b : Fin Config.rsNReg) (s : State), ∃ t,
    exec (mk (regWord d) (regWord a) (regWord b)) s = .next t ∧
    s.SameOutsideRs t ∧ s.rs.SameControl t.rs ∧ t.rs.sp = s.rs.sp ∧ s.rs.mem.SameCells t.rs.mem ∧
    t.rs.pc = s.rs.pc + 4 ∧
    ((t.rs.reg d).toNat : Int) = f (s.rs.reg a).toInt (s.rs.reg b).toInt % 2 ^ 32 ∧
    s.rs.SameOtherRegs d t.rs) ∧
  (∀ dst a b w s, firstBadWord [dst, a, b] = some w → RegisterFault (mk dst a b) 4 w s)

/-- The rule of an RS opcode with no entry in the decoder (R170 to R172): one cell, then `UnknownOpcode`. -/
def UnknownOpcodeRule (i : Instr) (op : Word) : Prop :=
  encode i = [op] ∧ RunsWhenFetched i ∧ OpcodeFetchFaults ∧
  ∀ s : State, ∃ t, exec i s = .next t ∧ s.SameOutsideRs t ∧ s.rs.SameData t.rs ∧ t.rs.pc = s.rs.pc + 1 ∧
    t.rs.Faulted .unknownOpcode s.rs.pc op

/-- A running LS instance whose `pc` is in memory, at whose word the instruction stands, runs it. -/
def LsRunsWhenFetched (i : Instr) : Prop :=
  ∀ s : State, s.sel = .ls → s.ls.running = true → s.ls.pc.toNat < 16384 →
    encode i = [s.ls.mem.read (s.ls.pc.toNat / 4)] → step s = exec i s

/-- The instructions that have a destination register (R43). -/
def writesRegister (i : Instr) : Bool :=
  match i with
  | .nop => false
  | .ldi _ _ => true
  | .add _ _ _ => true
  | .sub _ _ _ => true
  | .mul _ _ _ => true
  | .jmp _ => false
  | .hlt => false
  | .push _ => false
  | .pop _ => true
  | .call => false
  | .ret => false
  | .unknown _ => false
  | .sentinel => false
  | .addi _ _ _ => true
  | .j _ => false
  | .unrecognised _ => false

/-- The instructions that work on the stack (R43). -/
def usesStack (i : Instr) : Bool :=
  match i with
  | .nop => false
  | .ldi _ _ => false
  | .add _ _ _ => false
  | .sub _ _ _ => false
  | .mul _ _ _ => false
  | .jmp _ => false
  | .hlt => false
  | .push _ => true
  | .pop _ => true
  | .call => false
  | .ret => false
  | .unknown _ => false
  | .sentinel => false
  | .addi _ _ _ => false
  | .j _ => false
  | .unrecognised _ => false

/-- Instructions executed one after the other, each with the whole effect of its meaning; used to state the stack law (R164),
which speaks of instructions and not of where they stand in memory. -/
def execAll : List Instr → State → Host.Outcome State Fault Refusal
  | [], s => .next s
  | i :: is, s =>
    match exec i s with
    | .next t => execAll is t
    | .fault f => .fault f
    | .refused r => .refused r

end Sys2Proof.Machine
end

