-- ==== Sys2Proof/Certificates/Slice0/Obligations.lean ====
section
/-! DEFINITION. The statements for the provers. Each docstring cites the rules of spec/ the statement is about; OBLIGATIONS.json lists
them with their quotes. -/

open Sys2Proof Sys2Proof.Machine

/-! ### Encoding -/

/-- R90, R91, R93, R101, R102, R104, R105, R108: decoding the cells of a well-formed instruction gives it back, whatever cells
follow. -/
def Obligations.DecodeOfEncodeGivesInstruction : Prop :=
  ∀ (i : Instr) (rest : List Word), i.wellFormed = true → decode i.core (encode i ++ rest) = .ok (i, rest)

/-- R92 to R98, R106: whatever a decoder reads is a well-formed instruction of its own core, and its cells are the cells read. -/
def Obligations.EncodeOfDecodeGivesCells : Prop :=
  ∀ (c : CoreKind) (cells rest : List Word) (i : Instr), decode c cells = .ok (i, rest) →
    i.wellFormed = true ∧ i.core = c ∧ encode i ++ rest = cells

/-- R90, R98: two RS instructions with the same opcode cell have the same length, 1 to 4 cells, which is all a decoder asks
for. -/
def Obligations.OpcodeCellAloneFixesLength : Prop :=
  (∀ (op : Word) (ws ws' r r' : List Word) (i i' : Instr),
    decode .rs (op :: ws) = .ok (i, r) → decode .rs (op :: ws') = .ok (i', r') →
      (encode i).length = (encode i').length) ∧
  (∀ i : Instr, 1 ≤ (encode i).length ∧ (encode i).length ≤ 4) ∧
  (∀ op : Word, ∃ n, 1 ≤ n ∧ n ≤ 4 ∧ ∀ ws : List Word,
    (∃ i r, decode .rs (op :: ws) = .ok (i, r)) ↔ n ≤ (op :: ws).length)

/-- R106 (and R100's fields): the zero word, then opcode field 8, then opcode field 3, and nothing else, each with the fields of
R101 and R102. -/
def Obligations.LsWordDecodesByOpcodeField : Prop :=
  decodeLs 0 = .sentinel ∧
  ∀ w : Word, w ≠ 0 →
    (w.extractLsb' 26 6 = 0b001000 →
      decodeLs w = .addi (w.extractLsb' 21 5) (w.extractLsb' 16 5) (w.extractLsb' 0 16)) ∧
    (w.extractLsb' 26 6 = 0b000011 → decodeLs w = .j (w.extractLsb' 0 26)) ∧
    (w.extractLsb' 26 6 ≠ 0b001000 → w.extractLsb' 26 6 ≠ 0b000011 → decodeLs w = .unrecognised w)

/-- Words written out from R93 and R108 (RS) and R101, R102 (LS), at the parameters' defaults (log entry 4), decode to what they
stand for. -/
def Obligations.WrittenOutWordsDecode : Prop :=
  decode .rs [3, 0, 1, 2] = .ok (.sub 0 1 2, []) ∧
  decode .rs [1, 2, 77, 6] = .ok (.ldi 2 77, [6]) ∧
  decode .rs [7, 55] = .ok (.push 55, []) ∧
  decode .rs [0x100] = .ok (.unknown 0x100, []) ∧
  decode .ls [0b00100000010000010000000000000011] = .ok (.addi 2 1 3, []) ∧
  decode .ls [0b00001100000000000000000000000100] = .ok (.j 4, []) ∧
  decode .ls [0b00000100000000000000000000000000] = .ok (.unrecognised 0x04000000, [])

/-- R79, R235 and log entries 10 and 11 (the MODEL's interface, no rule): a word placed by `withFetchWord` is what the next step
runs, as the instruction `decodeTableWord` reads. -/
def Obligations.PlacedWordIsRunNext : Prop :=
  ∀ (s : State) (nbits w : Nat) (i : Instr), decodeTableWord nbits w = some i →
    step (s.withFetchWord nbits w) = exec i (s.withFetchWord nbits w)

/-! ### The step around an instruction -/

/-- R127, R183: where the bytes at the program counter decode to an instruction, the step of a running core is `exec` of it. -/
def Obligations.StepRunsDecodedInstruction : Prop :=
  (∀ (s : State) (i : Instr) (rest : List Word), s.sel = .rs → s.rs.running = true →
    decode .rs s.rs.fetchCells = .ok (i, rest) → step s = exec i s) ∧
  (∀ s : State, s.sel = .ls → s.ls.running = true → s.ls.pc.toNat < Config.lsEnd →
    step s = exec (decodeLs s.ls.fetchWord) s)

/-- R121, R123, R127 and R177, R179, R183: a running core at whose `pc` the cells of a well-formed instruction of its own
instruction set stand runs that instruction. -/
def Obligations.EncodedCellsRunAsTheirInstruction : Prop :=
  ∀ i : Instr, i.wellFormed = true →
    (i.core = .rs → RunsWhenFetched i) ∧ (i.core = .ls → LsRunsWhenFetched i)

/-- R120, R175: a step of a core that is not running changes nothing and returns false. -/
def Obligations.StepOfStoppedCoreChangesNothing : Prop :=
  ∀ s : State, s.isRunning = false → step s = .next s ∧ s.stepReturns = false

/-- R204: `AddressOutOfRange` on an opcode cell and on an operand cell, with the state it leaves; and no instruction's own effect
raises it while `sp` is in range (PUSH and POP never raise it for their data access). -/
def Obligations.AddressFaultsComeFromFetch : Prop :=
  OpcodeFetchFaults ∧
  (∀ i : Instr, i.wellFormed = true → i.core = .rs → OperandFetchFaults i) ∧
  (∀ (i : Instr) (s t : State), s.rs.sp.toNat ≤ 1024 → exec i s = .next t →
    s.rs.faultCode ≠ .addressOutOfRange → t.rs.faultCode ≠ .addressOutOfRange)

/-- R127: the RS step is the step of the pseudocode, transcribed in Machine/Reference.lean, and returns what it returns, in every
state whose `sp` is in range (R24). -/
def Obligations.RsStepIsReferenceStep : Prop :=
  ∀ s : State, s.sel = .rs → s.rs.sp.toNat ≤ 1024 → step s = .next { s with rs := refRsStep s.rs } ∧
    s.stepReturns = (refRsStep s.rs).running

/-- R183: the LS step is the step of the pseudocode, transcribed in Machine/Reference.lean, and returns what it returns, in every
state. -/
def Obligations.LsStepIsReferenceStep : Prop :=
  ∀ s : State, s.sel = .ls → step s = .next { s with ls := refLsStep s.ls } ∧ s.stepReturns = (refLsStep s.ls).running

/-- R209, R206: no step stops the machine; a fault is a next state with its record. -/
def Obligations.EveryStepAnswersNext : Prop :=
  (∀ (i : Instr) (s : State), ∃ t, exec i s = .next t) ∧ ∀ s : State, ∃ t, step s = .next t

/-- R1, R8, R216: a step leaves the other instance and the selection alone, and what it makes of its own instance does not depend
on the other. -/
def Obligations.InstancesNeverInteract : Prop :=
  (∀ s t : State, step s = .next t → t.sel = s.sel ∧ (s.sel = .rs → t.ls = s.ls) ∧ (s.sel = .ls → t.rs = s.rs)) ∧
  (∀ s s' t t' : State, step s = .next t → step s' = .next t' →
    (s.sel = .rs → s'.sel = .rs → s.rs = s'.rs → t.rs = t'.rs) ∧
    (s.sel = .ls → s'.sel = .ls → s.ls = s'.ls → t.ls = t'.ls))

/-- R26, R126, R209: the step in which a fault code first appears records the address of the instruction's opcode cell and stops
the core. -/
def Obligations.NewFaultRecordsOpcodeAddress : Prop :=
  ∀ s t : State, s.rs.faultCode = .none → step s = .next t → t.rs.faultCode ≠ .none →
    s.sel = .rs ∧ s.rs.running = true ∧ t.rs.faultPc = s.rs.pc ∧ t.rs.running = false ∧ t.rs.runState = .halted

/-! ### RS instructions -/

/-- R140. -/
def Obligations.NopOnlyAdvancesPc : Prop :=
  encode .nop = [0] ∧ RunsWhenFetched .nop ∧ OpcodeFetchFaults ∧
  ∀ s : State, ∃ t, exec .nop s = .next t ∧ s.SameOutsideRs t ∧ s.rs.SameControl t.rs ∧ s.rs.SameData t.rs ∧
    t.rs.pc = s.rs.pc + 1

/-- R141. -/
def Obligations.LdiWritesImmediate : Prop :=
  (∀ dst imm, encode (.ldi dst imm) = [1, dst, imm] ∧ RunsWhenFetched (.ldi dst imm) ∧
    OperandFetchFaults (.ldi dst imm)) ∧ OpcodeFetchFaults ∧
  (∀ (d : Fin Config.rsNReg) (imm : Word) (s : State), ∃ t, exec (.ldi (regWord d) imm) s = .next t ∧
    s.SameOutsideRs t ∧ s.rs.SameControl t.rs ∧ t.rs.sp = s.rs.sp ∧ s.rs.mem.SameCells t.rs.mem ∧
    t.rs.pc = s.rs.pc + 3 ∧ t.rs.reg d = imm ∧ s.rs.SameOtherRegs d t.rs) ∧
  (∀ dst imm s, isRegWord dst = false → RegisterFault (.ldi dst imm) 3 dst s)

/-- R142, with R145's wrap: the exact signed sum modulo 2^32. -/
def Obligations.AddWritesWrappedSum : Prop := ArithRule .add 2 fun a b => a + b

/-- R143, with R145's wrap: the exact signed difference, first source minus second, modulo 2^32. -/
def Obligations.SubWritesWrappedDifference : Prop := ArithRule .sub 3 fun a b => a - b

/-- R144, with R145's wrap: the exact signed product modulo 2^32. -/
def Obligations.MulWritesLowProduct : Prop := ArithRule .mul 4 fun a b => a * b

/-- R150: the operand word, bit for bit, in range or not. -/
def Obligations.JmpWritesPc : Prop :=
  (∀ target, encode (.jmp target) = [5, target] ∧ RunsWhenFetched (.jmp target) ∧ OperandFetchFaults (.jmp target)) ∧
  OpcodeFetchFaults ∧
  ∀ (target : Word) (s : State), ∃ t, exec (.jmp target) s = .next t ∧ s.SameOutsideRs t ∧
    s.rs.SameControl t.rs ∧ s.rs.SameData t.rs ∧ t.rs.pc = target

/-- R153: a jump out of memory is stored, and the next step's fetch faults with the bad address as `fault_pc` and `fault_info`. -/
def Obligations.JumpOutOfMemoryFaultsAtNextFetch : Prop :=
  ∀ (s : State) (target : Word), s.sel = .rs → s.rs.running = true → s.rs.pc.toNat + 2 ≤ 1024 →
    s.rs.mem.holds s.rs.pc.toNat [5, target] = true → 1024 ≤ target.toNat →
    ∃ t u, step s = .next t ∧ t.rs.running = true ∧ t.rs.pc = target ∧ s.rs.SameControl t.rs ∧ s.rs.SameData t.rs ∧
      step t = .next u ∧ u.rs.Faulted .addressOutOfRange target target ∧ u.rs.pc = target ∧ s.rs.SameData u.rs

/-- R151: a normal termination. -/
def Obligations.HltStopsWithoutFault : Prop :=
  encode .hlt = [6] ∧ RunsWhenFetched .hlt ∧ OpcodeFetchFaults ∧
  ∀ s : State, ∃ t, exec .hlt s = .next t ∧ s.SameOutsideRs t ∧ s.rs.SameData t.rs ∧
    t.rs.pc = s.rs.pc + 1 ∧ t.rs.running = false ∧ t.rs.runState = .halted ∧
    t.rs.faultRecord = s.rs.faultRecord

/-- R160, R162: below a full stack the literal lands in cell `sp - 1`; on a full one the fault, and nothing written. -/
def Obligations.PushStoresLiteralBelowSp : Prop :=
  (∀ value, encode (.push value) = [7, value] ∧ RunsWhenFetched (.push value) ∧ OperandFetchFaults (.push value)) ∧
  OpcodeFetchFaults ∧
  (∀ (value : Word) (s : State), 1 ≤ s.rs.sp.toNat → s.rs.sp.toNat ≤ 1024 →
    ∃ t, exec (.push value) s = .next t ∧ s.SameOutsideRs t ∧ s.rs.SameControl t.rs ∧ t.rs.x = s.rs.x ∧
      t.rs.pc = s.rs.pc + 2 ∧ t.rs.sp = s.rs.sp - 1 ∧ t.rs.mem.read (s.rs.sp - 1).toNat = value ∧
      ∀ a, a ≠ (s.rs.sp - 1).toNat → t.rs.mem.read a = s.rs.mem.read a) ∧
  (∀ (value : Word) (s : State), s.rs.sp = 0 →
    ∃ t, exec (.push value) s = .next t ∧ s.SameOutsideRs t ∧ s.rs.SameData t.rs ∧ t.rs.pc = s.rs.pc + 2 ∧
      t.rs.Faulted .stackOverflow s.rs.pc 7)

/-- R161, R163: the top of the stack lands in the destination and `sp` moves up, the cell keeping its value; on an empty stack
the fault, and −1 in the destination; the register index is tested before the stack is touched. -/
def Obligations.PopLoadsTopOfStack : Prop :=
  (∀ dst, encode (.pop dst) = [8, dst] ∧ RunsWhenFetched (.pop dst) ∧ OperandFetchFaults (.pop dst)) ∧
  OpcodeFetchFaults ∧
  (∀ (d : Fin Config.rsNReg) (s : State), s.rs.sp.toNat < 1024 →
    ∃ t, exec (.pop (regWord d)) s = .next t ∧ s.SameOutsideRs t ∧ s.rs.SameControl t.rs ∧
      s.rs.mem.SameCells t.rs.mem ∧ t.rs.pc = s.rs.pc + 2 ∧ t.rs.sp = s.rs.sp + 1 ∧
      t.rs.reg d = s.rs.mem.read s.rs.sp.toNat ∧ s.rs.SameOtherRegs d t.rs) ∧
  (∀ (d : Fin Config.rsNReg) (s : State), 1024 ≤ s.rs.sp.toNat →
    ∃ t, exec (.pop (regWord d)) s = .next t ∧ s.SameOutsideRs t ∧ s.rs.mem.SameCells t.rs.mem ∧
      t.rs.sp = s.rs.sp ∧ t.rs.pc = s.rs.pc + 2 ∧ t.rs.Faulted .stackUnderflow s.rs.pc 8 ∧
      (t.rs.reg d).toInt = -1 ∧ s.rs.SameOtherRegs d t.rs) ∧
  (∀ dst s, isRegWord dst = false → RegisterFault (.pop dst) 2 dst s)

/-- R170. -/
def Obligations.CallTakesUnknownOpcode : Prop := UnknownOpcodeRule .call 9

/-- R171. -/
def Obligations.RetTakesUnknownOpcode : Prop := UnknownOpcodeRule .ret 10

/-- R172: every opcode cell that is none of the eleven numbers. -/
def Obligations.OtherOpcodesTakeUnknownOpcode : Prop :=
  ∀ op : Word, op.toInt < 0 ∨ 11 ≤ op.toInt → UnknownOpcodeRule (.unknown op) op

/-- R73: a PUSH whose write lands on one of its own cells has already read them. -/
def Obligations.PushOntoItselfUsesFetchedCells : Prop :=
  ∀ s : State, s.sel = .rs → s.rs.running = true → s.rs.pc.toNat + 2 ≤ 1024 →
    s.rs.mem.read s.rs.pc.toNat = 7 → 1 ≤ s.rs.sp.toNat → s.rs.sp.toNat ≤ 1024 →
    ((s.rs.sp - 1).toNat = s.rs.pc.toNat ∨ (s.rs.sp - 1).toNat = s.rs.pc.toNat + 1) →
    ∃ t, step s = .next t ∧ t.rs.running = true ∧ t.rs.pc = s.rs.pc + 2 ∧ t.rs.sp = s.rs.sp - 1 ∧
      t.rs.mem.read (s.rs.sp - 1).toNat = s.rs.mem.read (s.rs.pc.toNat + 1) ∧
      ∀ a, a ≠ (s.rs.sp - 1).toNat → t.rs.mem.read a = s.rs.mem.read a

/-- R131, which the spec derives from R121, R123 and R125: `pc` after every RS instruction, the faulting ends among them. -/
def Obligations.RsPcAfterEachInstruction : Prop :=
  ∀ (i : Instr) (s t : State), i.core = .rs → exec i s = .next t →
    (∀ target, i = .jmp target → t.rs.pc = target) ∧
    ((∀ target, i ≠ .jmp target) → t.rs.pc = s.rs.pc + BitVec.ofNat 32 (encode i).length)

/-- R152, which the spec derives: HLT is the only RS instruction that stops the core other than by faulting, and none starts it. -/
def Obligations.OnlyHltStopsWithoutFault : Prop :=
  ∀ (i : Instr) (s t : State), s.rs.running = true → s.rs.faultCode = .none → exec i s = .next t →
    (t.rs.running = false ↔ i = .hlt ∨ t.rs.faultCode ≠ .none)

/-- R43, R21, R24, R22, R32: who writes which register, cell and pointer. -/
def Obligations.WritesFollowTheMatrix : Prop :=
  ∀ (i : Instr) (s t : State), exec i s = .next t →
    (writesRegister i = false → t.rs.x = s.rs.x ∧ t.ls.x = s.ls.x) ∧
    (usesStack i = false → t.rs.sp = s.rs.sp) ∧
    ((∀ v, i ≠ .push v) → t.rs.mem = s.rs.mem) ∧
    t.ls.mem = s.ls.mem ∧
    (i.core = .ls → t.rs = s.rs) ∧ (i.core = .rs → t.ls = s.ls)

/-! ### LS instructions -/

/-- R101, R180: any registers, `x[0]` and `dst = src` among them. -/
def Obligations.AddiWritesWrappedSum : Prop :=
  (∀ src dst imm, LsRunsWhenFetched (.addi src dst imm) ∧
    ∃ w : Word, encode (.addi src dst imm) = [w] ∧ w.extractLsb' 26 6 = 0b001000 ∧ w.extractLsb' 21 5 = src ∧
      w.extractLsb' 16 5 = dst ∧ w.extractLsb' 0 16 = imm) ∧
  ∀ (src dst : BitVec 5) (imm : BitVec 16) (s : State), ∃ t, exec (.addi src dst imm) s = .next t ∧
    s.SameOutsideLs t ∧ t.ls.running = s.ls.running ∧ t.ls.runState = s.ls.runState ∧
    s.ls.mem.SameCells t.ls.mem ∧ t.ls.pc = s.ls.pc + 4 ∧
    (t.ls.reg dst).toNat = ((s.ls.reg src).toNat + (imm.signExtend 32).toNat) % 2 ^ 32 ∧
    ∀ r, r ≠ dst → t.ls.reg r = s.ls.reg r

/-- R102, R181: the top four bits of the advanced `pc` over four times the target. -/
def Obligations.JumpKeepsSegmentAndTakesTarget : Prop :=
  (∀ target, LsRunsWhenFetched (.j target) ∧
    ∃ w : Word, encode (.j target) = [w] ∧ w.extractLsb' 26 6 = 0b000011 ∧ w.extractLsb' 0 26 = target) ∧
  ∀ (target : BitVec 26) (s : State), ∃ t, exec (.j target) s = .next t ∧ s.SameOutsideLs t ∧
    t.ls.running = s.ls.running ∧ t.ls.runState = s.ls.runState ∧ s.ls.mem.SameCells t.ls.mem ∧ t.ls.x = s.ls.x ∧
    t.ls.pc = ((s.ls.pc + 4) &&& 0xF0000000) ||| (target.setWidth 32 <<< 2) ∧
    t.ls.pc.extractLsb' 28 4 = (s.ls.pc + 4).extractLsb' 28 4 ∧ t.ls.pc.toNat % 2 ^ 28 = 4 * target.toNat ∧
    (s.ls.pc.toNat < 16384 → t.ls.pc.toNat = 4 * target.toNat)

/-- R104, R178: the zero word ends the run, with `pc` advanced and nothing else changed. -/
def Obligations.ZeroWordEndsRun : Prop :=
  encode .sentinel = [0] ∧ LsRunsWhenFetched .sentinel ∧
  ∀ s : State, ∃ t, exec .sentinel s = .next t ∧ s.SameOutsideLs t ∧ t.ls.running = false ∧ t.ls.runState = .halted ∧
    t.ls.x = s.ls.x ∧ s.ls.mem.SameCells t.ls.mem ∧ t.ls.pc = s.ls.pc + 4

/-- R105, R182: every nonzero word with neither opcode field is passed over: no fault, no stop. -/
def Obligations.UnrecognisedWordIsPassedOver : Prop :=
  (∀ w : Word, w ≠ 0 → w.extractLsb' 26 6 ≠ 0b001000 → w.extractLsb' 26 6 ≠ 0b000011 →
    LsRunsWhenFetched (.unrecognised w) ∧ encode (.unrecognised w) = [w]) ∧
  ∀ (w : Word) (s : State), ∃ t, exec (.unrecognised w) s = .next t ∧ s.SameOutsideLs t ∧
    t.ls.running = s.ls.running ∧ t.ls.runState = s.ls.runState ∧ t.ls.x = s.ls.x ∧
    s.ls.mem.SameCells t.ls.mem ∧ t.ls.pc = s.ls.pc + 4

/-- R176: a running LS core whose `pc` is at or past 16384 stops there, with nothing fetched and nothing else changed. -/
def Obligations.LsPastEndStops : Prop :=
  ∀ s : State, s.sel = .ls → s.ls.running = true → 16384 ≤ s.ls.pc.toNat →
    s.stepReturns = false ∧
    ∃ t, step s = .next t ∧ s.SameOutsideLs t ∧ t.ls.running = false ∧ t.ls.runState = .halted ∧
      t.ls.pc = s.ls.pc ∧ t.ls.x = s.ls.x ∧ t.ls.mem = s.ls.mem

/-- R66: an LS core started with `pc` not a multiple of 4 fetches `mem[pc >> 2]`, and the advance keeps the low bits. -/
def Obligations.MisalignedLsFetchDropsLowBits : Prop :=
  ∀ s t : State, s.sel = .ls → s.ls.running = true → s.ls.pc.toNat < 16384 → step s = .next t →
    step s = exec (decodeLs (s.ls.mem.read (s.ls.pc.toNat / 4))) s ∧
    ((∀ target, decodeLs (s.ls.mem.read (s.ls.pc.toNat / 4)) ≠ .j target) →
      t.ls.pc.toNat = s.ls.pc.toNat + 4 ∧ t.ls.pc.toNat % 4 = s.ls.pc.toNat % 4)

/-! ### Invariants and whole-machine rules -/

/-- R20, R24, R26, R27, R30, R33, R35: every step keeps the invariants, from every state that has them. The canonical form of the
memory lists is the model's own (log entries 2 and 3). -/
def Obligations.EveryStepKeepsInvariant : Prop :=
  ∀ s t : State, s.Inv → step s = .next t → t.Inv

/-- R36 to R39: the invariants hold after construction and after reset; canonical form as in log entries 2 and 3. -/
def Obligations.InvariantHoldsAtReset : Prop := State.reset.Inv ∧ State.constructed.Inv

/-- R38 to R40, R79: the host's transactions, on the selected instance (log entry 1), keep the invariants. -/
def Obligations.HostTransactionsKeepInvariant : Prop :=
  ∀ (x : Transaction) (s : Session), s.core.Inv → (s.act x).1.core.Inv

/-- R25, R34: no step ever sets `running` from false to true, in either instance. -/
def Obligations.NoStepStartsACore : Prop :=
  ∀ s t : State, step s = .next t →
    (s.rs.running = false → t.rs.running = false) ∧ (s.ls.running = false → t.ls.running = false)

/-- R26, R120, R210: a step of a core with a recorded fault leaves the whole RS core as it is, so do any number of steps, and no
transaction of the host but `reset` and `start` (R231, R233) changes the record. -/
def Obligations.FaultRecordIsSticky : Prop :=
  (∀ s t : State, s.Inv → s.rs.faultCode ≠ .none → step s = .next t → t.rs = s.rs) ∧
  (∀ s : State, s.Inv → s.rs.faultCode ≠ .none → ∀ n, (State.stepped^[n] s).rs = s.rs) ∧
  (∀ (x : Transaction) (s : Session), s.core.Inv → s.core.rs.faultCode ≠ .none → x ≠ .reset → x ≠ .start →
    (s.act x).1.core.rs.faultRecord = s.core.rs.faultRecord ∧ (s.act x).1.core.rs.running = false)

/-- R207, R237: the step that ends a run ends it normally exactly where a HLT was executed (RS), always (LS, where the zero word
or a `pc` past the end was found), and by a recorded fault otherwise. -/
def Obligations.RunEndsNormallyOrByFault : Prop :=
  ∀ s t : State, s.Inv → s.isRunning = true → step s = .next t → t.isRunning = false →
    (s.sel = .rs → (t.endedNormally = true ↔ s.rs.pc.toNat < 1024 ∧ s.rs.mem.read s.rs.pc.toNat = 6) ∧
      (t.faulted = true ↔ t.rs.faultCode ≠ .none)) ∧
    (s.sel = .ls → t.endedNormally = true ∧
      (16384 ≤ s.ls.pc.toNat ∨ s.ls.mem.read (s.ls.pc.toNat / 4) = 0))

/-- R231, R232: what `reset` leaves, from every state. -/
def Obligations.HostResetSetsEveryField : Prop :=
  (∀ s : State, s.sel = .rs → s.SameOutsideRs s.hostReset ∧ (∀ i, s.hostReset.rs.reg i = 0) ∧
    s.hostReset.rs.pc = 0 ∧ s.hostReset.rs.sp = 1024 ∧ s.hostReset.rs.running = true ∧
    s.hostReset.rs.runState = .running ∧ s.hostReset.rs.faultRecord = (.none, 0, 0) ∧
    s.hostReset.rs.mem = s.rs.mem) ∧
  (∀ s : State, s.sel = .ls → s.SameOutsideLs s.hostReset ∧ (∀ r, s.hostReset.ls.reg r = 0) ∧
    s.hostReset.ls.pc = 0 ∧ s.hostReset.ls.running = true ∧ s.hostReset.ls.runState = .running ∧
    s.hostReset.ls.mem = s.ls.mem)

/-- R233: what `start` leaves, from every state. -/
def Obligations.StartKeepsRegistersMemoryAndStack : Prop :=
  (∀ s : State, s.sel = .rs → s.SameOutsideRs s.start ∧ s.rs.SameData s.start.rs ∧ s.start.rs.pc = 0 ∧
    s.start.rs.running = true ∧ s.start.rs.runState = .running ∧ s.start.rs.faultRecord = (.none, 0, 0)) ∧
  (∀ s : State, s.sel = .ls → s.SameOutsideLs s.start ∧ s.start.ls.x = s.ls.x ∧ s.start.ls.mem = s.ls.mem ∧
    s.start.ls.pc = 0 ∧ s.start.ls.running = true ∧ s.start.ls.runState = .running)

/-- R36, R37, R230: construction, in which a step does nothing. -/
def Obligations.ConstructedCoreIsIdleAndZero : Prop :=
  ∀ c : CoreKind, (Session.construct c).core.isRunning = false ∧
    step (Session.construct c).core = .next (Session.construct c).core ∧
    (∀ a, (Session.construct c).core.memory.read a = 0) ∧
    (∀ i, (Session.construct c).core.rs.reg i = 0) ∧ (∀ r, (Session.construct c).core.ls.reg r = 0) ∧
    (Session.construct c).core.rs.pc = 0 ∧ (Session.construct c).core.ls.pc = 0 ∧
    (Session.construct c).core.rs.sp = 1024 ∧ (Session.construct c).core.rs.runState = .idle ∧
    (Session.construct c).core.ls.runState = .idle ∧
    (Session.construct c).core.rs.faultRecord = (.none, 0, 0)

/-- R79, R82: a load in range writes its one cell and nothing else, and reads back; out of range it reports the error and the
session is as before. -/
def Obligations.LoadWordWritesOneCellOrNothing : Prop :=
  (∀ (a : Nat) (v : Word) (s : State), a < s.capacity → ∃ t, loadWord a v s = .next t ∧
    t.memory.read a = v ∧ (∀ b, b ≠ a → t.memory.read b = s.memory.read b) ∧
    (s.sel = .rs → t = { s with rs := { s.rs with mem := t.rs.mem } }) ∧
    (s.sel = .ls → t = { s with ls := { s.ls with mem := t.ls.mem } })) ∧
  (∀ (a : Nat) (v : Word) (s : Session), s.core.capacity ≤ a → s.inRun = false →
    s.act (.loadWord a v) = (s, .error (.hostAddressOutOfRange a)))

/-- R80: a bulk load is the loads of its words one after the other. Each cell in range that the image covers holds its word after
it, no other cell and nothing else has changed, and the error reported, to the host too, is the first address out of range (log
entry 13). -/
def Obligations.LoadImageWritesEachWordInRange : Prop :=
  (∀ (base : Nat) (image : List Word) (s : State),
    (∀ a, (loadImage base image s).1.memory.read a =
      if base ≤ a ∧ a < base + image.length ∧ a < s.capacity then image.getD (a - base) 0 else s.memory.read a) ∧
    (s.sel = .rs →
      (loadImage base image s).1 = { s with rs := { s.rs with mem := (loadImage base image s).1.rs.mem } }) ∧
    (s.sel = .ls →
      (loadImage base image s).1 = { s with ls := { s.ls with mem := (loadImage base image s).1.ls.mem } }) ∧
    (loadImage base image s).2 =
      if image ≠ [] ∧ s.capacity < base + image.length then some (.hostAddressOutOfRange (max base s.capacity))
      else none) ∧
  (∀ (base : Nat) (image : List Word) (s : Session), s.inRun = false →
    (s.act (.loadImage base image)).1 = { s with core := (loadImage base image s.core).1 } ∧
    ((loadImage base image s.core).2 = none → (s.act (.loadImage base image)).2 = .ok) ∧
    (∀ f, (loadImage base image s.core).2 = some f → (s.act (.loadImage base image)).2 = .error f))

/-- R81, R242: a load, of one word or of an image, after a step that leaves the core running, or a run of at least one step that
does, is turned away and changes nothing. After the step or run that ends with the core stopped, after `reset` and `start`, and in
`Idle` after construction, it is not; and only those transactions move the host between the two. Turning a load away by a refusal
is the model's choice (log entry 12), the fuel of a run too (log entry 14). -/
def Obligations.LoadsOnlyBetweenRuns : Prop :=
  (∀ (s : Session) (x : Transaction) (a : Nat) (v : Word) (base : Nat) (image : List Word),
    (x = .step ∨ ∃ n, x = .run (n + 1)) → (s.act x).1.core.isRunning = true →
    (s.act x).1.act (.loadWord a v) = ((s.act x).1, .turnedAway .hostWriteDuringRun) ∧
    (s.act x).1.act (.loadImage base image) = ((s.act x).1, .turnedAway .hostWriteDuringRun)) ∧
  (∀ (s : Session) (x : Transaction) (a : Nat) (v : Word) (base : Nat) (image : List Word),
    (x = .reset ∨ x = .start ∨ ((x = .step ∨ ∃ n, x = .run n) ∧ (s.act x).1.core.isRunning = false)) →
    (a < (s.act x).1.core.capacity → ((s.act x).1.act (.loadWord a v)).2 = .ok) ∧
    (base + image.length ≤ (s.act x).1.core.capacity → ((s.act x).1.act (.loadImage base image)).2 = .ok)) ∧
  (∀ (c : CoreKind) (a : Nat) (v : Word) (base : Nat) (image : List Word),
    (a < (Session.construct c).core.capacity → ((Session.construct c).act (.loadWord a v)).2 = .ok) ∧
    (base + image.length ≤ (Session.construct c).core.capacity →
      ((Session.construct c).act (.loadImage base image)).2 = .ok)) ∧
  (∀ (s : Session) (a : Nat) (v : Word) (base : Nat) (image : List Word) (snapN : Nat),
    (s.act (.loadWord a v)).1.inRun = s.inRun ∧ (s.act (.loadImage base image)).1.inRun = s.inRun ∧
    (s.act (.snapshot snapN)).1.inRun = s.inRun ∧ (s.act (.run 0)).1.core = s.core)

/-- R235, R236: a fresh instance, an image of words written from cell 0, `reset`: the launch state. Of an image that does not fit
the cells in range are written and the first address past memory is reported (log entry 13). -/
def Obligations.LaunchStateHoldsImage : Prop :=
  ∀ (c : CoreKind) (image : List Word),
    (State.launch c image).1.sel = c ∧ (State.launch c image).1.isRunning = true ∧
    (∀ a, a < (State.launch c image).1.capacity → (State.launch c image).1.memory.read a = image.getD a 0) ∧
    (c = .rs → (State.launch c image).1.rs.pc = 0 ∧ (State.launch c image).1.rs.sp = 1024 ∧
      (∀ i, (State.launch c image).1.rs.reg i = 0) ∧ (State.launch c image).1.rs.faultRecord = (.none, 0, 0)) ∧
    (c = .ls → (State.launch c image).1.ls.pc = 0 ∧ ∀ r, (State.launch c image).1.ls.reg r = 0) ∧
    (State.launch c image).2 =
      if (State.launch c image).1.capacity < image.length then
        some (.hostAddressOutOfRange (State.launch c image).1.capacity)
      else none

/-- R129, R185: `run` under `n` units of fuel is `n` calls of `step`, and where it has ended the core it stands at the first state
of the run in which the core is not running; more fuel changes nothing then, and fuel can be given in parts. The fuel is the
model's (log entry 14). -/
def Obligations.RunStopsAtFirstStoppedState : Prop :=
  (∀ (n : Nat) (s : State), s.run n = State.stepped^[n] s) ∧
  (∀ (n : Nat) (s : State), (s.run n).isRunning = false → ∃ k, k ≤ n ∧ s.run n = State.stepped^[k] s ∧
    ∀ j, j < k → (State.stepped^[j] s).isRunning = true) ∧
  (∀ (n m : Nat) (s : State), (s.run n).isRunning = false → s.run (n + m) = s.run n) ∧
  (∀ (n m : Nat) (s : State), s.run (n + m) = (s.run n).run m) ∧
  (∀ (n : Nat) (s : State), s.run (n + 1) = (s.run n).stepped)

/-- R29, R30, R83, R206, R217, R218, R242: `snapshot` shows the whole of the selected core, its memory as far as `snapN` goes, in
any `run_state`, and writes nothing. That `run_state` is in the view is read from R29 (log entry 16). That an LS view shows 0 and
0 beside the fault code `None`, and that the cells are cut at the capacity, are the model's choice (log entry 9). -/
def Obligations.SnapshotShowsTheCore : Prop :=
  ∀ (snapN : Nat) (s : Session), ∃ v, s.act (.snapshot snapN) = (s, .view v) ∧ v.Shows snapN s.core

/-- R83, R84, R130: the Observer's views of an RS run are the snapshots after each of its steps, and of an LS run the one at its
end, each showing the state it is taken of. What a view shows rests on log entry 16 (`run_state`, read from R29) and on the
model's choices of log entry 9 (0 and 0 beside the LS fault code `None` of R30 and R206, the cut at the capacity); the fuel is the
model's too (log entry 14). -/
def Obligations.ObserverSeesEachStep : Prop :=
  (∀ (snapN n k : Nat) (s : State) (v : Snapshot), s.sel = .rs → (s.observedRun snapN n)[k]? = some v →
    k < n ∧ v = (s.run (k + 1)).snapshot snapN ∧ v.Shows snapN (s.run (k + 1))) ∧
  (∀ (snapN n k : Nat) (s : State), s.sel = .rs → k < n → (s.run k).isRunning = true →
    ((s.observedRun snapN n)[k]?).isSome = true) ∧
  (∀ (snapN n : Nat) (s : State), s.sel = .ls → (s.run n).isRunning = false →
    s.observedRun snapN n = [(s.run n).snapshot snapN] ∧ ((s.run n).snapshot snapN).Shows snapN (s.run n))

/-- R164's law, whose second sentence the spec derives: after `n` pushes, each pop puts the last value not yet popped in its own destination register; `sp` comes back, and
the pushed cells stay as the pushes wrote them. -/
def Obligations.PopsReturnPushesInReverse : Prop :=
  ∀ (values : List Word) (dsts : List (Fin Config.rsNReg)) (s : State),
    values.length ≤ s.rs.sp.toNat → s.rs.sp.toNat ≤ 1024 → dsts.length ≤ values.length →
    ∃ t, execAll (values.map .push ++ dsts.map fun d => .pop (regWord d)) s = .next t ∧
      t.rs.sp.toNat = s.rs.sp.toNat - values.length + dsts.length ∧ s.rs.SameControl t.rs ∧
      (∀ d, dsts.getLast? = some d → t.rs.reg d = values.getD (values.length - dsts.length) 0) ∧
      (∀ k, k < values.length → t.rs.mem.read (s.rs.sp.toNat - 1 - k) = values.getD k 0) ∧
      (∀ a, a < s.rs.sp.toNat - values.length ∨ s.rs.sp.toNat ≤ a → t.rs.mem.read a = s.rs.mem.read a)

/-- R152, R188, which the spec derives: two states that differ only in registers run in step for ever: the path, memory, `sp`, the flags and the fault
record do not depend on any register value. -/
def Obligations.PathDoesNotDependOnRegisters : Prop :=
  ∀ (n : Nat) (s t : State), s.SameButRegs t → (s.run n).SameButRegs (t.run n)
end

