-- ==== Sys2Proof/Laws/Decode.lean ====
section
/-! SUPPORT. The bits of the LS formats: which field of an encoded word is which, and the opcode mask as the opcode field. -/

namespace Sys2Proof

open Sys2Proof.Machine

/-- The word of format LS-I (R101, R108). -/
def addiWord (src dst : BitVec 5) (imm : BitVec 16) : Word :=
  lsMatchAddi ||| (src.setWidth 32 <<< 21) ||| (dst.setWidth 32 <<< 16) ||| imm.setWidth 32

/-- The word of format LS-J (R102, R108). -/
def jumpWord (target : BitVec 26) : Word := lsMatchJ ||| target.setWidth 32

@[simp] theorem encode_addi (src dst : BitVec 5) (imm : BitVec 16) :
    encode (.addi src dst imm) = [addiWord src dst imm] := rfl

@[simp] theorem encode_j (target : BitVec 26) : encode (.j target) = [jumpWord target] := rfl

/-- The mask of R100 keeps the opcode field and nothing else. -/
theorem opMask_eq_iff (w m : Word) (h : m &&& Config.lsOpMask = m) :
    w &&& Config.lsOpMask = m ↔ w.extractLsb' 26 6 = m.extractLsb' 26 6 := by
  constructor
  · rintro rfl
    ext i hi
    interval_cases i <;> simp [Config.lsOpMask]
  · intro hw
    rw [← h]
    ext i hi
    by_cases hi26 : 26 ≤ i
    · have hbit := congrArg (fun v => v.getLsbD (i - 26)) hw
      have h1 : i - 26 < 6 := by omega
      have h2 : 26 + (i - 26) = i := by omega
      simp only [BitVec.getLsbD_extractLsb', h1, h2, decide_true, Bool.true_and] at hbit
      rw [BitVec.getLsbD_eq_getElem hi, BitVec.getLsbD_eq_getElem hi] at hbit
      simp only [BitVec.getElem_and, hbit]
    · have hz : Config.lsOpMask[i] = false := by
        have : i < 26 := by omega
        clear * - this
        interval_cases i <;> simp [Config.lsOpMask]
      simp only [BitVec.getElem_and, hz, Bool.and_false]

theorem opMask_addi (w : Word) : w &&& Config.lsOpMask = lsMatchAddi ↔ w.extractLsb' 26 6 = 0b001000 :=
  opMask_eq_iff w lsMatchAddi rfl

theorem opMask_j (w : Word) : w &&& Config.lsOpMask = lsMatchJ ↔ w.extractLsb' 26 6 = 0b000011 :=
  opMask_eq_iff w lsMatchJ rfl

@[simp] theorem addiWord_opcode (src dst : BitVec 5) (imm : BitVec 16) :
    (addiWord src dst imm).extractLsb' 26 6 = 0b001000 := by
  ext i hi
  interval_cases i <;> simp [addiWord, lsMatchAddi]

@[simp] theorem addiWord_src (src dst : BitVec 5) (imm : BitVec 16) :
    (addiWord src dst imm).extractLsb' 21 5 = src := by
  ext i hi
  interval_cases i <;> simp [addiWord, lsMatchAddi]

@[simp] theorem addiWord_dst (src dst : BitVec 5) (imm : BitVec 16) :
    (addiWord src dst imm).extractLsb' 16 5 = dst := by
  ext i hi
  interval_cases i <;> simp [addiWord, lsMatchAddi]

@[simp] theorem addiWord_imm (src dst : BitVec 5) (imm : BitVec 16) :
    (addiWord src dst imm).extractLsb' 0 16 = imm := by
  ext i hi
  interval_cases i <;> simp [addiWord, lsMatchAddi]

@[simp] theorem jumpWord_opcode (target : BitVec 26) : (jumpWord target).extractLsb' 26 6 = 0b000011 := by
  ext i hi
  interval_cases i <;> simp [jumpWord, lsMatchJ]

@[simp] theorem jumpWord_target (target : BitVec 26) : (jumpWord target).extractLsb' 0 26 = target := by
  ext i hi
  interval_cases i <;> simp [jumpWord, lsMatchJ]

/-- An LS-I word is determined by its four fields. -/
theorem addiWord_of_fields (w : Word) (h : w.extractLsb' 26 6 = 0b001000) :
    addiWord (w.extractLsb' 21 5) (w.extractLsb' 16 5) (w.extractLsb' 0 16) = w := by
  ext i hi
  have hbit : ∀ k, k < 6 → w.getLsbD (26 + k) = (0b001000#6).getLsbD k := by
    intro k hk
    have := congrArg (fun v => v.getLsbD k) h
    simpa [hk] using this
  rw [← BitVec.getLsbD_eq_getElem hi, ← BitVec.getLsbD_eq_getElem hi]
  by_cases hlow : i < 26
  · interval_cases i <;> simp [addiWord, lsMatchAddi]
  · have h6 : i - 26 < 6 := by omega
    have := hbit (i - 26) h6
    rw [show 26 + (i - 26) = i by omega] at this
    rw [this]
    clear this
    interval_cases i <;> simp [addiWord, lsMatchAddi]

/-- An LS-J word is determined by its two fields. -/
theorem jumpWord_of_fields (w : Word) (h : w.extractLsb' 26 6 = 0b000011) : jumpWord (w.extractLsb' 0 26) = w := by
  ext i hi
  have hbit : ∀ k, k < 6 → w.getLsbD (26 + k) = (0b000011#6).getLsbD k := by
    intro k hk
    have := congrArg (fun v => v.getLsbD k) h
    simpa [hk] using this
  rw [← BitVec.getLsbD_eq_getElem hi, ← BitVec.getLsbD_eq_getElem hi]
  by_cases hlow : i < 26
  · interval_cases i <;> simp [jumpWord, lsMatchJ]
  · have h6 : i - 26 < 6 := by omega
    have := hbit (i - 26) h6
    rw [show 26 + (i - 26) = i by omega] at this
    rw [this]
    clear this
    interval_cases i <;> simp [jumpWord, lsMatchJ]

/-! ### The RS decoder, opcode by opcode -/

@[simp] theorem decodeRs_nop (ws : List Word) : decodeRs (opcNop :: ws) = .ok (.nop, ws) := rfl
@[simp] theorem decodeRs_ldi (ws : List Word) : decodeRs (opcLdi :: ws) = takeTwo .ldi ws := rfl
@[simp] theorem decodeRs_add (ws : List Word) : decodeRs (opcAdd :: ws) = takeThree .add ws := rfl
@[simp] theorem decodeRs_sub (ws : List Word) : decodeRs (opcSub :: ws) = takeThree .sub ws := rfl
@[simp] theorem decodeRs_mul (ws : List Word) : decodeRs (opcMul :: ws) = takeThree .mul ws := rfl
@[simp] theorem decodeRs_jmp (ws : List Word) : decodeRs (opcJmp :: ws) = takeOne .jmp ws := rfl
@[simp] theorem decodeRs_hlt (ws : List Word) : decodeRs (opcHlt :: ws) = .ok (.hlt, ws) := rfl
@[simp] theorem decodeRs_push (ws : List Word) : decodeRs (opcPush :: ws) = takeOne .push ws := rfl
@[simp] theorem decodeRs_pop (ws : List Word) : decodeRs (opcPop :: ws) = takeOne .pop ws := rfl
@[simp] theorem decodeRs_call (ws : List Word) : decodeRs (opcCall :: ws) = .ok (.call, ws) := rfl
@[simp] theorem decodeRs_ret (ws : List Word) : decodeRs (opcRet :: ws) = .ok (.ret, ws) := rfl

/-- An opcode cell with none of the eleven numbers (R172). -/
theorem decodeRs_unknown (op : Word) (ws : List Word) (h : op ∉ numberedOpcodes) :
    decodeRs (op :: ws) = .ok (.unknown op, ws) := by
  simp only [numberedOpcodes, List.mem_cons, List.not_mem_nil, or_false, not_or] at h
  obtain ⟨h0, h1, h2, h3, h4, h5, h6, h7, h8, h9, h10⟩ := h
  rw [decodeRs, if_neg h0, if_neg h1, if_neg h2, if_neg h3, if_neg h4, if_neg h5, if_neg h6, if_neg h7, if_neg h8,
    if_neg h9, if_neg h10]

/-- Every opcode cell is one of the eleven numbers or none of them. -/
theorem opcode_cases (op : Word) :
    op = opcNop ∨ op = opcLdi ∨ op = opcAdd ∨ op = opcSub ∨ op = opcMul ∨ op = opcJmp ∨ op = opcHlt ∨ op = opcPush ∨
    op = opcPop ∨ op = opcCall ∨ op = opcRet ∨ op ∉ numberedOpcodes := by
  by_cases h : op ∈ numberedOpcodes
  · simp only [numberedOpcodes, List.mem_cons, List.not_mem_nil, or_false] at h
    tauto
  · tauto

theorem takeOne_ok (mk : Word → Instr) (ws rest : List Word) (i : Instr) :
    takeOne mk ws = .ok (i, rest) ↔ ∃ a, ws = a :: rest ∧ i = mk a := by
  cases ws with
  | nil => simp [takeOne]
  | cons a r =>
    simp only [takeOne, Except.ok.injEq, Prod.mk.injEq, List.cons.injEq]
    constructor
    · rintro ⟨rfl, rfl⟩
      exact ⟨a, ⟨rfl, rfl⟩, rfl⟩
    · rintro ⟨b, ⟨rfl, rfl⟩, rfl⟩
      exact ⟨rfl, rfl⟩

theorem takeTwo_ok (mk : Word → Word → Instr) (ws rest : List Word) (i : Instr) :
    takeTwo mk ws = .ok (i, rest) ↔ ∃ a b, ws = a :: b :: rest ∧ i = mk a b := by
  rcases ws with _ | ⟨a, _ | ⟨b, r⟩⟩
  · simp [takeTwo]
  · simp [takeTwo]
  · simp only [takeTwo, Except.ok.injEq, Prod.mk.injEq, List.cons.injEq]
    constructor
    · rintro ⟨rfl, rfl⟩
      exact ⟨a, b, ⟨rfl, rfl, rfl⟩, rfl⟩
    · rintro ⟨c, d, ⟨rfl, rfl, rfl⟩, rfl⟩
      exact ⟨rfl, rfl⟩

theorem takeThree_ok (mk : Word → Word → Word → Instr) (ws rest : List Word) (i : Instr) :
    takeThree mk ws = .ok (i, rest) ↔ ∃ a b c, ws = a :: b :: c :: rest ∧ i = mk a b c := by
  rcases ws with _ | ⟨a, _ | ⟨b, _ | ⟨c, r⟩⟩⟩
  · simp [takeThree]
  · simp [takeThree]
  · simp [takeThree]
  · simp only [takeThree, Except.ok.injEq, Prod.mk.injEq, List.cons.injEq]
    constructor
    · rintro ⟨rfl, rfl⟩
      exact ⟨a, b, c, ⟨rfl, rfl, rfl, rfl⟩, rfl⟩
    · rintro ⟨d, e, f, ⟨rfl, rfl, rfl, rfl⟩, rfl⟩
      exact ⟨rfl, rfl⟩

/-- With too few operand cells a decoder says so (R90). -/
theorem takeOne_short (mk : Word → Instr) (ws : List Word) (h : ws.length < 1) :
    takeOne mk ws = .error .missingOperand := by
  rcases ws with _ | ⟨a, r⟩
  · rfl
  · simp at h

theorem takeTwo_short (mk : Word → Word → Instr) (ws : List Word) (h : ws.length < 2) :
    takeTwo mk ws = .error .missingOperand := by
  rcases ws with _ | ⟨a, _ | ⟨b, r⟩⟩
  · rfl
  · rfl
  · simp at h

theorem takeThree_short (mk : Word → Word → Word → Instr) (ws : List Word) (h : ws.length < 3) :
    takeThree mk ws = .error .missingOperand := by
  rcases ws with _ | ⟨a, _ | ⟨b, _ | ⟨c, r⟩⟩⟩
  · rfl
  · rfl
  · rfl
  · simp at h
    omega

end Sys2Proof
end

