-- ==== Sys2Proof/Laws/Memory.lean ====
section
/-! SUPPORT. The memory array: read after write, the canonical form kept by every operation, and equal contents as equal data. -/

namespace Sys2Proof.Machine

@[simp] theorem Memory.read_nil (a : Nat) : Memory.read [] a = 0 := rfl

/-- A cell below every listed address of a canonical memory is unlisted. -/
theorem Memory.read_below (cap lo a : Nat) (m : Memory) (h : Memory.wfFrom cap lo m = true) (ha : a < lo) :
    Memory.read m a = 0 := by
  induction m generalizing lo with
  | nil => rfl
  | cons e rest ih =>
    obtain ⟨b, v⟩ := e
    simp only [Memory.wfFrom, Bool.and_eq_true, decide_eq_true_eq] at h
    have hne : a ≠ b := by omega
    simp only [Memory.read, if_neg hne]
    exact ih (b + 1) h.2 (by omega)

@[simp] theorem Memory.read_erase_self (m : Memory) (a : Nat) : Memory.read (m.erase a) a = 0 := by
  induction m with
  | nil => rfl
  | cons e rest ih =>
    obtain ⟨b, u⟩ := e
    by_cases hb : b = a
    · simpa [Memory.erase, hb] using ih
    · simpa [Memory.erase, hb, Memory.read, Ne.symm hb] using ih

theorem Memory.read_erase_other (m : Memory) (a c : Nat) (h : c ≠ a) :
    Memory.read (m.erase a) c = Memory.read m c := by
  induction m with
  | nil => rfl
  | cons e rest ih =>
    obtain ⟨b, u⟩ := e
    by_cases hb : b = a
    · subst hb
      simpa [Memory.erase, Memory.read, h] using ih
    · by_cases hc : c = b
      · simp [Memory.erase, hb, Memory.read, hc]
      · simpa [Memory.erase, hb, Memory.read, hc] using ih

theorem Memory.read_insert_self (m : Memory) (a : Nat) (v : Word) (h : ∀ e ∈ m, e.1 ≠ a) :
    Memory.read (m.insert a v) a = v := by
  induction m with
  | nil => simp [Memory.insert, Memory.read]
  | cons e rest ih =>
    obtain ⟨b, u⟩ := e
    have hb : a ≠ b := fun hab => h (b, u) List.mem_cons_self hab.symm
    unfold Memory.insert
    split_ifs
    · simp [Memory.read]
    · simpa [Memory.read, hb] using ih fun e he => h e (List.mem_cons_of_mem _ he)

theorem Memory.read_insert_other (m : Memory) (a c : Nat) (v : Word) (h : c ≠ a) :
    Memory.read (m.insert a v) c = Memory.read m c := by
  induction m with
  | nil => simp [Memory.insert, Memory.read, h, Memory.unlisted]
  | cons e rest ih =>
    obtain ⟨b, u⟩ := e
    unfold Memory.insert
    split_ifs
    · simp [Memory.read, h]
    · simp only [Memory.read, ih]

theorem Memory.erase_misses (m : Memory) (a : Nat) : ∀ e ∈ m.erase a, e.1 ≠ a := by
  intro e he
  simpa using (List.mem_filter.mp he).2

/-- The written cell reads as written (R67, R82). -/
@[simp] theorem Memory.read_write_self (m : Memory) (a : Nat) (v : Word) : Memory.read (m.write a v) a = v := by
  unfold Memory.write
  split_ifs with hv
  · simp [hv, Memory.unlisted]
  · exact Memory.read_insert_self _ a v (Memory.erase_misses m a)

/-- Every other cell reads as before. -/
theorem Memory.read_write_other (m : Memory) (a b : Nat) (v : Word) (hb : b ≠ a) :
    Memory.read (m.write a v) b = Memory.read m b := by
  unfold Memory.write
  split_ifs
  · exact Memory.read_erase_other m a b hb
  · rw [Memory.read_insert_other _ a b v hb, Memory.read_erase_other m a b hb]

/-- A lower bound may be lowered. -/
theorem Memory.wfFrom_mono (cap lo hi : Nat) (m : Memory) (h : Memory.wfFrom cap hi m = true) (hle : lo ≤ hi) :
    Memory.wfFrom cap lo m = true := by
  cases m with
  | nil => rfl
  | cons e rest =>
    simp only [Memory.wfFrom, Bool.and_eq_true, decide_eq_true_eq] at h ⊢
    exact ⟨⟨⟨by omega, h.1.1.2⟩, h.1.2⟩, h.2⟩

theorem Memory.wfFrom_erase (cap lo a : Nat) (m : Memory) (h : Memory.wfFrom cap lo m = true) :
    Memory.wfFrom cap lo (m.erase a) = true := by
  induction m generalizing lo with
  | nil => rfl
  | cons e rest ih =>
    obtain ⟨b, u⟩ := e
    simp only [Memory.wfFrom, Bool.and_eq_true, decide_eq_true_eq] at h
    obtain ⟨⟨⟨hlo, hcap⟩, hu⟩, hrest⟩ := h
    by_cases hb : b = a
    · simpa [Memory.erase, hb] using
        Memory.wfFrom_mono cap lo (b + 1) _ (ih (b + 1) hrest) (by omega)
    · have htail := ih (b + 1) hrest
      simp only [Memory.erase, List.filter_cons, bne_iff_ne, ne_eq, hb, not_false_eq_true, if_true, Memory.wfFrom,
        Bool.and_eq_true, decide_eq_true_eq]
      exact ⟨⟨⟨hlo, hcap⟩, by simpa using hu⟩, htail⟩

theorem Memory.wfFrom_insert (cap lo a : Nat) (m : Memory) (v : Word) (h : Memory.wfFrom cap lo m = true)
    (hmiss : ∀ e ∈ m, e.1 ≠ a) (hv : v ≠ Memory.unlisted) (hlo : lo ≤ a) (hcap : a < cap) :
    Memory.wfFrom cap lo (m.insert a v) = true := by
  induction m generalizing lo with
  | nil => simp [Memory.insert, Memory.wfFrom, hlo, hcap, hv]
  | cons e rest ih =>
    obtain ⟨b, u⟩ := e
    have hb : b ≠ a := hmiss (b, u) List.mem_cons_self
    simp only [Memory.wfFrom, Bool.and_eq_true, decide_eq_true_eq, bne_iff_ne] at h
    obtain ⟨⟨⟨hlob, hcapb⟩, hu⟩, hrest⟩ := h
    unfold Memory.insert
    split_ifs with hab
    · simp only [Memory.wfFrom, Bool.and_eq_true, decide_eq_true_eq, bne_iff_ne]
      exact ⟨⟨⟨hlo, hcap⟩, hv⟩, ⟨⟨by omega, hcapb⟩, hu⟩, hrest⟩
    · simp only [Memory.wfFrom, Bool.and_eq_true, decide_eq_true_eq, bne_iff_ne]
      exact ⟨⟨⟨hlob, hcapb⟩, hu⟩, ih (b + 1) hrest (fun e he => hmiss e (List.mem_cons_of_mem _ he)) (by omega)⟩

/-- `Memory.write` keeps the canonical form. -/
theorem Memory.wf_write (cap a : Nat) (m : Memory) (v : Word) (h : Memory.wf cap m = true) (ha : a < cap) :
    Memory.wf cap (Memory.write m a v) = true := by
  unfold Memory.write
  split_ifs with hv
  · exact Memory.wfFrom_erase cap 0 a m h
  · exact Memory.wfFrom_insert cap 0 a _ v (Memory.wfFrom_erase cap 0 a m h) (Memory.erase_misses m a) hv
      (Nat.zero_le a) ha

/-- `Memory.writeAll` keeps the canonical form. -/
theorem Memory.wf_writeAll (cap : Nat) (ws : List Word) (a : Nat) (m : Memory) (h : Memory.wf cap m = true)
    (ha : a + ws.length ≤ cap) : Memory.wf cap (Memory.writeAll m a ws) = true := by
  induction ws generalizing a m with
  | nil => exact h
  | cons w ws ih =>
    simp only [List.length_cons] at ha
    exact ih (a + 1) (m.write a w) (Memory.wf_write cap a m w h (by omega)) (by omega)

/-- The empty memory is canonical. -/
@[simp] theorem Memory.wf_nil (cap : Nat) : Memory.wf cap [] = true := rfl

/-- Two canonical memories with equal contents are equal data. -/
theorem Memory.eq_of_read_eq (cap lo : Nat) (m n : Memory) (hm : Memory.wfFrom cap lo m = true)
    (hn : Memory.wfFrom cap lo n = true) (h : ∀ a, Memory.read m a = Memory.read n a) : m = n := by
  induction m generalizing lo n with
  | nil =>
    cases n with
    | nil => rfl
    | cons e n' =>
      obtain ⟨b, u⟩ := e
      have := h b
      simp only [Memory.wfFrom, Bool.and_eq_true, bne_iff_ne, decide_eq_true_eq] at hn
      simp [Memory.read] at this
      exact absurd this.symm hn.1.2
  | cons e m' ih =>
    obtain ⟨a, v⟩ := e
    have hm' := hm
    simp only [Memory.wfFrom, Bool.and_eq_true, bne_iff_ne, decide_eq_true_eq] at hm
    cases n with
    | nil =>
      have := h a
      simp [Memory.read] at this
      exact absurd this hm.1.2
    | cons e n' =>
      obtain ⟨b, u⟩ := e
      have hn' := hn
      simp only [Memory.wfFrom, Bool.and_eq_true, bne_iff_ne, decide_eq_true_eq] at hn
      have hab : a = b := by
        rcases Nat.lt_trichotomy a b with hlt | heq | hgt
        · have ha := h a
          have hb0 : Memory.read ((b, u) :: n') a = 0 := by
            have hne : a ≠ b := by omega
            simpa [Memory.read, hne] using Memory.read_below cap (b + 1) a n' hn.2 (by omega)
          rw [hb0] at ha
          simp [Memory.read] at ha
          exact absurd ha hm.1.2
        · exact heq
        · have hb := h b
          have ha0 : Memory.read ((a, v) :: m') b = 0 := by
            have hne : b ≠ a := by omega
            simpa [Memory.read, hne] using Memory.read_below cap (a + 1) b m' hm.2 (by omega)
          rw [ha0] at hb
          simp [Memory.read] at hb
          exact absurd hb.symm hn.1.2
      subst hab
      have hv : v = u := by simpa [Memory.read] using h a
      subst hv
      have htail : m' = n' := ih (a + 1) n' hm.2 hn.2 fun c => by
        by_cases hc : c = a
        · subst hc
          rw [Memory.read_below cap (c + 1) c m' hm.2 (by omega), Memory.read_below cap (c + 1) c n' hn.2 (by omega)]
        · simpa [Memory.read, hc] using h c
      rw [htail]

end Sys2Proof.Machine
end

