-- ==== Sys2Proof/Laws/Operands.lean ====
section
/-! SUPPORT. Operand forms and the alu: which words name a register, what a register reads after a write, and the operations as
arithmetic modulo 2^32. -/

namespace Sys2Proof.Machine

@[simp] theorem toInt_regWord (d : Fin Config.rsNReg) : (regWord d).toInt = d.val := by
  revert d
  decide

@[simp] theorem toNat_regWord (d : Fin Config.rsNReg) : (regWord d).toNat = d.val := by
  revert d
  decide

/-- Each of the four index words names its register (R95). -/
@[simp] theorem regIndex?_regWord (d : Fin Config.rsNReg) : regIndex? (regWord d) = some d := by
  have : d.val < 4 := d.isLt
  simp [regIndex?, s32]
  omega

/-- A word that names a register is one of the four index words. -/
theorem regIndex?_eq_some (w : Word) (d : Fin Config.rsNReg) (h : regIndex? w = some d) : w = regWord d := by
  unfold regIndex? s32 at h
  split_ifs at h with hw
  · cases h
    apply BitVec.eq_of_toInt_eq
    rw [toInt_regWord]
    simp only [Int.toNat_of_nonneg hw.1]

/-- The index test, as the statements spell it. -/
theorem isRegWord_eq (w : Word) : isRegWord w = (regIndex? w).isSome := by
  unfold isRegWord regIndex? s32
  by_cases h : 0 ≤ w.toInt ∧ w.toInt ≤ 3
  · simp [h.1, h.2]
  · rw [dif_neg h]
    simpa [Classical.not_and_iff_not_or_not] using h

theorem regIndex?_eq_none (w : Word) : regIndex? w = none ↔ isRegWord w = false := by
  rw [isRegWord_eq]
  cases regIndex? w <;> simp

@[simp] theorem RsState.reg_setReg_self (d : Fin Config.rsNReg) (v : Word) (s : RsState) : (s.setReg d v).reg d = v := by
  simp [RsState.reg, RsState.setReg, Vector.get_eq_getElem]

theorem RsState.reg_setReg_other (d k : Fin Config.rsNReg) (v : Word) (s : RsState) (h : k ≠ d) :
    (s.setReg d v).reg k = s.reg k := by
  have : d.val ≠ k.val := fun hv => h (Fin.ext hv.symm)
  simp [RsState.reg, RsState.setReg, Vector.get_eq_getElem, this]

theorem RsState.reg_eq_of_x_eq (s t : RsState) (h : t.x = s.x) (k : Fin Config.rsNReg) : t.reg k = s.reg k := by
  simp [RsState.reg, h]

@[simp] theorem LsState.reg_setReg_self (r : BitVec 5) (v : Word) (s : LsState) : (s.setReg r v).reg r = v := by
  simp [LsState.reg, LsState.setReg, Vector.get_eq_getElem]

theorem LsState.reg_setReg_other (r k : BitVec 5) (v : Word) (s : LsState) (h : k ≠ r) :
    (s.setReg r v).reg k = s.reg k := by
  have : (lsRegIndex r).val ≠ (lsRegIndex k).val := fun hv => h (BitVec.eq_of_toNat_eq hv.symm)
  simp [LsState.reg, LsState.setReg, Vector.get_eq_getElem, this]

/-- The unsigned reading of a wrapped integer (R6). -/
theorem toNat_wrap32 (n : Int) : ((wrap32 n).toNat : Int) = n % 2 ^ 32 := by
  have : 0 ≤ n % 2 ^ 32 := Int.emod_nonneg _ (by decide)
  simp only [wrap32, BitVec.toNat_ofInt]
  exact Int.toNat_of_nonneg (by simpa using this)

/-- ADD is addition modulo 2^32 (R145). -/
theorem rsAdd_eq (a b : Word) : rsAdd a b = a + b := by
  simp [rsAdd, wrap32, s32, BitVec.ofInt_add]

/-- SUB is subtraction modulo 2^32 (R145). -/
theorem rsSub_eq (a b : Word) : rsSub a b = a - b := by
  apply BitVec.eq_of_toInt_eq
  simp [rsSub, wrap32, s32, BitVec.toInt_sub, BitVec.toInt_ofInt]

/-- MUL is multiplication modulo 2^32 (R145). -/
theorem rsMul_eq (a b : Word) : rsMul a b = a * b := by
  simp [rsMul, wrap32, s32, BitVec.ofInt_mul]

/-- The LS sum is addition of the sign-extended immediate modulo 2^32 (R184). -/
theorem lsAdd_eq (v : Word) (imm : BitVec 16) : lsAdd v imm = v + imm.signExtend 32 := by
  apply BitVec.eq_of_toNat_eq
  have := toNat_wrap32 ((u32 v + u32 (sext32 imm) : Nat) : Int)
  simp only [lsAdd, BitVec.toNat_add, u32, sext32] at this ⊢
  omega

end Sys2Proof.Machine
end

