-- ==== Sys2Proof/Laws/State.lean ====
section
/-! SUPPORT. One lemma per field per update of the two cores' states, so that no proof unfolds a record update. -/

namespace Sys2Proof.Machine

/-! ### RS core -/

@[simp] theorem RsState.advance_mem (n : Nat) (s : RsState) : (s.advance n).mem = s.mem := rfl
@[simp] theorem RsState.advance_x (n : Nat) (s : RsState) : (s.advance n).x = s.x := rfl
@[simp] theorem RsState.advance_pc (n : Nat) (s : RsState) : (s.advance n).pc = s.pc + BitVec.ofNat 32 n := rfl
@[simp] theorem RsState.advance_sp (n : Nat) (s : RsState) : (s.advance n).sp = s.sp := rfl
@[simp] theorem RsState.advance_running (n : Nat) (s : RsState) : (s.advance n).running = s.running := rfl
@[simp] theorem RsState.advance_runState (n : Nat) (s : RsState) : (s.advance n).runState = s.runState := rfl
@[simp] theorem RsState.advance_faultCode (n : Nat) (s : RsState) : (s.advance n).faultCode = s.faultCode := rfl
@[simp] theorem RsState.advance_faultPc (n : Nat) (s : RsState) : (s.advance n).faultPc = s.faultPc := rfl
@[simp] theorem RsState.advance_faultInfo (n : Nat) (s : RsState) : (s.advance n).faultInfo = s.faultInfo := rfl

@[simp] theorem RsState.raise_mem (o i : Word) (c : FaultCode) (s : RsState) : (s.raise o c i).mem = s.mem := rfl
@[simp] theorem RsState.raise_x (o i : Word) (c : FaultCode) (s : RsState) : (s.raise o c i).x = s.x := rfl
@[simp] theorem RsState.raise_pc (o i : Word) (c : FaultCode) (s : RsState) : (s.raise o c i).pc = s.pc := rfl
@[simp] theorem RsState.raise_sp (o i : Word) (c : FaultCode) (s : RsState) : (s.raise o c i).sp = s.sp := rfl
@[simp] theorem RsState.raise_running (o i : Word) (c : FaultCode) (s : RsState) : (s.raise o c i).running = false := rfl
@[simp] theorem RsState.raise_runState (o i : Word) (c : FaultCode) (s : RsState) : (s.raise o c i).runState = .halted := rfl
@[simp] theorem RsState.raise_faultCode (o i : Word) (c : FaultCode) (s : RsState) : (s.raise o c i).faultCode = c := rfl
@[simp] theorem RsState.raise_faultPc (o i : Word) (c : FaultCode) (s : RsState) : (s.raise o c i).faultPc = o := rfl
@[simp] theorem RsState.raise_faultInfo (o i : Word) (c : FaultCode) (s : RsState) : (s.raise o c i).faultInfo = i := rfl

@[simp] theorem RsState.halt_mem (s : RsState) : (s.halt).mem = s.mem := rfl
@[simp] theorem RsState.halt_x (s : RsState) : (s.halt).x = s.x := rfl
@[simp] theorem RsState.halt_pc (s : RsState) : (s.halt).pc = s.pc := rfl
@[simp] theorem RsState.halt_sp (s : RsState) : (s.halt).sp = s.sp := rfl
@[simp] theorem RsState.halt_running (s : RsState) : (s.halt).running = false := rfl
@[simp] theorem RsState.halt_runState (s : RsState) : (s.halt).runState = .halted := rfl
@[simp] theorem RsState.halt_faultCode (s : RsState) : (s.halt).faultCode = s.faultCode := rfl
@[simp] theorem RsState.halt_faultPc (s : RsState) : (s.halt).faultPc = s.faultPc := rfl
@[simp] theorem RsState.halt_faultInfo (s : RsState) : (s.halt).faultInfo = s.faultInfo := rfl

@[simp] theorem RsState.setReg_mem (d : Fin Config.rsNReg) (v : Word) (s : RsState) : (s.setReg d v).mem = s.mem := rfl
@[simp] theorem RsState.setReg_x (d : Fin Config.rsNReg) (v : Word) (s : RsState) : (s.setReg d v).x = s.x.set d.val v d.isLt := rfl
@[simp] theorem RsState.setReg_pc (d : Fin Config.rsNReg) (v : Word) (s : RsState) : (s.setReg d v).pc = s.pc := rfl
@[simp] theorem RsState.setReg_sp (d : Fin Config.rsNReg) (v : Word) (s : RsState) : (s.setReg d v).sp = s.sp := rfl
@[simp] theorem RsState.setReg_running (d : Fin Config.rsNReg) (v : Word) (s : RsState) : (s.setReg d v).running = s.running := rfl
@[simp] theorem RsState.setReg_runState (d : Fin Config.rsNReg) (v : Word) (s : RsState) : (s.setReg d v).runState = s.runState := rfl
@[simp] theorem RsState.setReg_faultCode (d : Fin Config.rsNReg) (v : Word) (s : RsState) : (s.setReg d v).faultCode = s.faultCode := rfl
@[simp] theorem RsState.setReg_faultPc (d : Fin Config.rsNReg) (v : Word) (s : RsState) : (s.setReg d v).faultPc = s.faultPc := rfl
@[simp] theorem RsState.setReg_faultInfo (d : Fin Config.rsNReg) (v : Word) (s : RsState) : (s.setReg d v).faultInfo = s.faultInfo := rfl

@[simp] theorem RsState.start_mem (s : RsState) : (s.start).mem = s.mem := rfl
@[simp] theorem RsState.start_x (s : RsState) : (s.start).x = s.x := rfl
@[simp] theorem RsState.start_pc (s : RsState) : (s.start).pc = Config.entry := rfl
@[simp] theorem RsState.start_sp (s : RsState) : (s.start).sp = s.sp := rfl
@[simp] theorem RsState.start_running (s : RsState) : (s.start).running = true := rfl
@[simp] theorem RsState.start_runState (s : RsState) : (s.start).runState = .running := rfl
@[simp] theorem RsState.start_faultCode (s : RsState) : (s.start).faultCode = .none := rfl
@[simp] theorem RsState.start_faultPc (s : RsState) : (s.start).faultPc = 0 := rfl
@[simp] theorem RsState.start_faultInfo (s : RsState) : (s.start).faultInfo = 0 := rfl

@[simp] theorem RsState.hostReset_mem (s : RsState) : (s.hostReset).mem = s.mem := rfl
@[simp] theorem RsState.hostReset_x (s : RsState) : (s.hostReset).x = #v[0, 0, 0, 0] := rfl
@[simp] theorem RsState.hostReset_pc (s : RsState) : (s.hostReset).pc = Config.entry := rfl
@[simp] theorem RsState.hostReset_sp (s : RsState) : (s.hostReset).sp = spInit := rfl
@[simp] theorem RsState.hostReset_running (s : RsState) : (s.hostReset).running = true := rfl
@[simp] theorem RsState.hostReset_runState (s : RsState) : (s.hostReset).runState = .running := rfl
@[simp] theorem RsState.hostReset_faultCode (s : RsState) : (s.hostReset).faultCode = .none := rfl
@[simp] theorem RsState.hostReset_faultPc (s : RsState) : (s.hostReset).faultPc = 0 := rfl
@[simp] theorem RsState.hostReset_faultInfo (s : RsState) : (s.hostReset).faultInfo = 0 := rfl

/-! ### LS core -/

@[simp] theorem LsState.advance_mem (s : LsState) : (s.advance).mem = s.mem := rfl
@[simp] theorem LsState.advance_x (s : LsState) : (s.advance).x = s.x := rfl
@[simp] theorem LsState.advance_pc (s : LsState) : (s.advance).pc = s.pc + 4 := rfl
@[simp] theorem LsState.advance_running (s : LsState) : (s.advance).running = s.running := rfl
@[simp] theorem LsState.advance_runState (s : LsState) : (s.advance).runState = s.runState := rfl

@[simp] theorem LsState.halt_mem (s : LsState) : (s.halt).mem = s.mem := rfl
@[simp] theorem LsState.halt_x (s : LsState) : (s.halt).x = s.x := rfl
@[simp] theorem LsState.halt_pc (s : LsState) : (s.halt).pc = s.pc := rfl
@[simp] theorem LsState.halt_running (s : LsState) : (s.halt).running = false := rfl
@[simp] theorem LsState.halt_runState (s : LsState) : (s.halt).runState = .halted := rfl

@[simp] theorem LsState.setReg_mem (r : BitVec 5) (v : Word) (s : LsState) : (s.setReg r v).mem = s.mem := rfl
@[simp] theorem LsState.setReg_x (r : BitVec 5) (v : Word) (s : LsState) : (s.setReg r v).x = s.x.set (lsRegIndex r).val v (lsRegIndex r).isLt := rfl
@[simp] theorem LsState.setReg_pc (r : BitVec 5) (v : Word) (s : LsState) : (s.setReg r v).pc = s.pc := rfl
@[simp] theorem LsState.setReg_running (r : BitVec 5) (v : Word) (s : LsState) : (s.setReg r v).running = s.running := rfl
@[simp] theorem LsState.setReg_runState (r : BitVec 5) (v : Word) (s : LsState) : (s.setReg r v).runState = s.runState := rfl

@[simp] theorem LsState.start_mem (s : LsState) : (s.start).mem = s.mem := rfl
@[simp] theorem LsState.start_x (s : LsState) : (s.start).x = s.x := rfl
@[simp] theorem LsState.start_pc (s : LsState) : (s.start).pc = Config.entry := rfl
@[simp] theorem LsState.start_running (s : LsState) : (s.start).running = true := rfl
@[simp] theorem LsState.start_runState (s : LsState) : (s.start).runState = .running := rfl

@[simp] theorem LsState.hostReset_mem (s : LsState) : (s.hostReset).mem = s.mem := rfl
@[simp] theorem LsState.hostReset_x (s : LsState) : (s.hostReset).x = Vector.replicate Config.lsNReg 0 := rfl
@[simp] theorem LsState.hostReset_pc (s : LsState) : (s.hostReset).pc = Config.entry := rfl
@[simp] theorem LsState.hostReset_running (s : LsState) : (s.hostReset).running = true := rfl
@[simp] theorem LsState.hostReset_runState (s : LsState) : (s.hostReset).runState = .running := rfl

end Sys2Proof.Machine
end

