-- ==== Sys2Proof/Laws/Ops.lean ====
section
/-! SUPPORT. One lemma per shared operation that says what it can do, for proofs to cite instead of unfolding it. -/

namespace Sys2Proof.Machine

/-! ### Operand checks -/

/-- A valid index word goes on with its register (R124). -/
@[simp] theorem RsState.withRegister_regWord (o : Word) (d : Fin Config.rsNReg) (s : RsState)
    (next : Fin Config.rsNReg → RsState) : s.withRegister o (regWord d) next = next d := by
  simp [RsState.withRegister]

/-- Any other word is reported (R124). -/
theorem RsState.withRegister_bad (o w : Word) (s : RsState) (next : Fin Config.rsNReg → RsState)
    (h : isRegWord w = false) : s.withRegister o w next = s.raise o .registerIndexOutOfRange w := by
  simp [RsState.withRegister, (regIndex?_eq_none w).mpr h]

/-- The two ends of a register check. -/
theorem RsState.withRegister_cases (o w : Word) (s : RsState) (next : Fin Config.rsNReg → RsState) :
    (∃ d, w = regWord d ∧ s.withRegister o w next = next d) ∨
    (isRegWord w = false ∧ s.withRegister o w next = s.raise o .registerIndexOutOfRange w) := by
  cases h : regIndex? w with
  | some d => exact .inl ⟨d, regIndex?_eq_some w d h, by simp [RsState.withRegister, h]⟩
  | none =>
    have hb := (regIndex?_eq_none w).mp h
    exact .inr ⟨hb, RsState.withRegister_bad o w s next hb⟩

/-- A word either names a register or does not. -/
theorem regWord_or_bad (w : Word) : (∃ d, w = regWord d) ∨ isRegWord w = false := by
  cases h : regIndex? w with
  | some d => exact .inl ⟨d, regIndex?_eq_some w d h⟩
  | none => exact .inr ((regIndex?_eq_none w).mp h)

/-- An index word passes the test. -/
@[simp] theorem isRegWord_regWord (d : Fin Config.rsNReg) : isRegWord (regWord d) = true := by
  simp [isRegWord_eq]

/-! ### ADD, SUB, MUL -/

/-- With three valid indices the operation writes its one register (R142 to R146). -/
@[simp] theorem RsState.arith_regWord (op : Word → Word → Word) (d a b : Fin Config.rsNReg) (s : RsState) :
    s.arith op (regWord d) (regWord a) (regWord b) = (s.advance 4).setReg d (op (s.reg a) (s.reg b)) := by
  simp [RsState.arith, RsState.reg, RsState.advance]

/-- The first bad operand is reported, with `pc` past the instruction (R124). -/
theorem RsState.arith_bad (op : Word → Word → Word) (dst a b w : Word) (s : RsState)
    (h : firstBadWord [dst, a, b] = some w) :
    s.arith op dst a b = (s.advance 4).raise s.pc .registerIndexOutOfRange w := by
  simp only [firstBadWord, List.find?_cons, List.find?_nil] at h
  unfold RsState.arith
  rcases regWord_or_bad dst with ⟨d, rfl⟩ | hd
  · rcases regWord_or_bad a with ⟨i, rfl⟩ | ha
    · rcases regWord_or_bad b with ⟨k, rfl⟩ | hb
      · simp at h
      · simp only [isRegWord_regWord, hb, Bool.not_true, Bool.not_false, Option.some.injEq] at h
        subst h
        simp [RsState.withRegister_bad _ _ _ _ hb]
    · simp only [isRegWord_regWord, ha, Bool.not_true, Bool.not_false, Option.some.injEq] at h
      subst h
      simp [RsState.withRegister_bad _ _ _ _ ha]
  · simp only [hd, Bool.not_false, Option.some.injEq] at h
    subst h
    simp [RsState.withRegister_bad _ _ _ _ hd]

/-- The two ends of ADD, SUB and MUL. -/
theorem RsState.arith_cases (op : Word → Word → Word) (dst a b : Word) (s : RsState) :
    (∃ d v, s.arith op dst a b = (s.advance 4).setReg d v) ∨
    (∃ w, s.arith op dst a b = (s.advance 4).raise s.pc .registerIndexOutOfRange w) := by
  rcases regWord_or_bad dst with ⟨d, rfl⟩ | hd
  · rcases regWord_or_bad a with ⟨i, rfl⟩ | ha
    · rcases regWord_or_bad b with ⟨k, rfl⟩ | hb
      · exact .inl ⟨d, _, RsState.arith_regWord op d i k s⟩
      · exact .inr ⟨b, RsState.arith_bad op _ _ b b s (by simp [firstBadWord, hb])⟩
    · exact .inr ⟨a, RsState.arith_bad op _ a b a s (by simp [firstBadWord, ha])⟩
  · exact .inr ⟨dst, RsState.arith_bad op dst a b dst s (by simp [firstBadWord, hd])⟩

/-! ### The stack -/

/-- A push with room (R160). -/
theorem RsState.push_room (o v : Word) (s : RsState) (h1 : 1 ≤ s.sp.toNat) (h2 : s.sp.toNat ≤ 1024) :
    s.push o v = { s with sp := s.sp - 1, mem := s.mem.write (s.sp - 1).toNat v } := by
  have h0 : s.sp ≠ 0 := by
    intro h
    rw [h] at h1
    exact absurd h1 (by decide)
  have hlt : ¬ Config.rsCap ≤ (s.sp - 1).toNat := by
    rw [Config.rsCap_eq]
    bv_omega
  rw [RsState.push, if_neg h0, RsState.memWrite, if_neg hlt]

/-- A push on a full stack (R160). -/
theorem RsState.push_full (o v : Word) (s : RsState) (h : s.sp = 0) : s.push o v = s.raise o .stackOverflow opcPush := by
  simp [RsState.push, h]

/-- Everything a push can do, `sp` beyond the capacity included (log entry 7). -/
theorem RsState.push_cases (o v : Word) (s : RsState) :
    (s.sp = 0 ∧ s.push o v = s.raise o .stackOverflow opcPush) ∨
    ((s.sp - 1).toNat < 1024 ∧ s.push o v = { s with sp := s.sp - 1, mem := s.mem.write (s.sp - 1).toNat v }) ∨
    (1024 < s.sp.toNat ∧ s.push o v = { s with sp := s.sp - 1 }.raise o .addressOutOfRange (s.sp - 1)) := by
  by_cases h0 : s.sp = 0
  · exact .inl ⟨h0, RsState.push_full o v s h0⟩
  · by_cases h : Config.rsCap ≤ (s.sp - 1).toNat
    · refine .inr (.inr ⟨?_, ?_⟩)
      · rw [Config.rsCap_eq] at h
        bv_omega
      · rw [RsState.push, if_neg h0, RsState.memWrite, if_pos h]
    · refine .inr (.inl ⟨?_, ?_⟩)
      · rw [Config.rsCap_eq] at h
        omega
      · rw [RsState.push, if_neg h0, RsState.memWrite, if_neg h]

/-- A pop of a stack that is not empty (R161). -/
theorem RsState.pop_some (o : Word) (s : RsState) (h : s.sp.toNat < 1024) :
    s.pop o = (s.mem.read s.sp.toNat, { s with sp := s.sp + 1 }) := by
  have : ¬ 1024 ≤ s.sp.toNat := by omega
  simp [RsState.pop, this]

/-- A pop of an empty stack (R161). -/
theorem RsState.pop_empty (o : Word) (s : RsState) (h : 1024 ≤ s.sp.toNat) :
    s.pop o = (popSentinel, s.raise o .stackUnderflow opcPop) := by
  simp [RsState.pop, h]

/-! ### The shapes of the meanings -/

@[simp] theorem State.nextRs_eq (s : State) (t : RsState) : s.nextRs t = .next { s with rs := t } := rfl

@[simp] theorem State.nextLs_eq (s : State) (t : LsState) : s.nextLs t = .next { s with ls := t } := rfl

/-- An RS instruction's meaning, whatever it is, changes only the RS instance. -/
theorem exec_rs (i : Instr) (s : State) (h : i.core = .rs) : ∃ t : RsState, exec i s = .next { s with rs := t } := by
  cases i <;> first | exact ⟨_, rfl⟩ | cases h

/-- An LS instruction's meaning, whatever it is, changes only the LS instance. -/
theorem exec_ls (i : Instr) (s : State) (h : i.core = .ls) : ∃ t : LsState, exec i s = .next { s with ls := t } := by
  cases i <;> first | exact ⟨_, rfl⟩ | cases h

end Sys2Proof.Machine
end

