-- ==== Sys2Proof/Laws/Fetch.lean ====
section
/-! SUPPORT. What fetch reads, how a decoder fails, and the ends of a step. -/

namespace Sys2Proof.Machine

open Config

theorem RsState.memRead_in (a : Word) (s : RsState) (h : a.toNat < 1024) : s.memRead a = some (s.mem.read a.toNat) := by
  have : ¬ 1024 ≤ a.toNat := by omega
  simp [RsState.memRead, this]

theorem RsState.memRead_out (a : Word) (s : RsState) (h : 1024 ≤ a.toNat) : s.memRead a = none := by
  simp [RsState.memRead, h]

/-- Past the end there is no cell. -/
theorem RsState.cellsFrom_out (s : RsState) (n : Nat) (a : Word) (h : 1024 ≤ a.toNat) : s.cellsFrom n a = [] := by
  cases n with
  | zero => rfl
  | succ n => simp [RsState.cellsFrom, RsState.memRead_out a s h]

/-- One cell more. -/
theorem RsState.cellsFrom_in (s : RsState) (n : Nat) (a : Word) (h : a.toNat < 1024) :
    s.cellsFrom (n + 1) a = s.mem.read a.toNat :: s.cellsFrom n (a + 1) := by
  simp [RsState.cellsFrom, RsState.memRead_in a s h]

theorem toNat_succ_of_lt (a : Word) (h : a.toNat < 1024) : (a + 1).toNat = a.toNat + 1 := by bv_omega

/-- How many cells a fetch finds. -/
theorem RsState.length_cellsFrom (s : RsState) (n : Nat) (a : Word) (h : a.toNat ≤ 1024) :
    (s.cellsFrom n a).length = min n (1024 - a.toNat) := by
  induction n generalizing a with
  | zero => simp [RsState.cellsFrom]
  | succ n ih =>
    rcases Nat.lt_or_ge a.toNat 1024 with hlt | hge
    · have hs := toNat_succ_of_lt a hlt
      rw [RsState.cellsFrom_in s n a hlt, List.length_cons, ih (a + 1) (by omega), hs]
      omega
    · rw [RsState.cellsFrom_out s _ a hge]
      simp
      omega

/-- Cells that stand in memory are what a fetch finds first. -/
theorem RsState.cellsFrom_of_holds (s : RsState) (ws : List Word) (n : Nat) (a : Word) (hn : ws.length ≤ n)
    (hcap : a.toNat + ws.length ≤ 1024) (h : s.mem.holds a.toNat ws = true) :
    ∃ rest, s.cellsFrom n a = ws ++ rest := by
  induction ws generalizing n a with
  | nil => exact ⟨_, rfl⟩
  | cons w ws ih =>
    cases n with
    | zero => simp at hn
    | succ n =>
      simp only [List.length_cons] at hn hcap
      simp only [Memory.holds, Bool.and_eq_true, beq_iff_eq] at h
      have hlt : a.toNat < 1024 := by omega
      have hs := toNat_succ_of_lt a hlt
      obtain ⟨rest, hr⟩ := ih n (a + 1) (by omega) (by omega) (by rw [hs]; exact h.2)
      exact ⟨rest, by rw [RsState.cellsFrom_in s n a hlt, hr, h.1]; rfl⟩

/-- The ends of a step: nothing runs, the fetch ends it, or the decoded instruction runs. -/
theorem step_cases (s : State) :
    (s.isRunning = false ∧ step s = .next s) ∨
    (s.sel = .rs ∧ s.rs.running = true ∧ (∃ e, decode .rs s.rs.fetchCells = .error e) ∧
      step s = .next { s with rs := s.rs.fetchFault s.rs.fetchCells.length }) ∨
    (∃ i rest, s.sel = .rs ∧ s.rs.running = true ∧ decode .rs s.rs.fetchCells = .ok (i, rest) ∧ step s = exec i s) ∨
    (s.sel = .ls ∧ s.ls.running = true ∧ 16384 ≤ s.ls.pc.toNat ∧ step s = .next { s with ls := s.ls.halt }) ∨
    (s.sel = .ls ∧ s.ls.running = true ∧ s.ls.pc.toNat < 16384 ∧ step s = exec (decodeLs s.ls.fetchWord) s) := by
  cases hsel : s.sel with
  | rs =>
    cases hrun : s.rs.running with
    | false => exact .inl ⟨by simp [State.isRunning, hsel, hrun], by simp [step, fetch, fetchRs, hsel, hrun]⟩
    | true =>
      cases hd : decode .rs s.rs.fetchCells with
      | error e => exact .inr (.inl ⟨rfl, rfl, ⟨e, rfl⟩, by simp [step, fetch, fetchRs, hsel, hrun, hd]⟩)
      | ok p => exact .inr (.inr (.inl ⟨p.1, p.2, rfl, rfl, rfl, by simp [step, fetch, fetchRs, hsel, hrun, hd]⟩))
  | ls =>
    cases hrun : s.ls.running with
    | false => exact .inl ⟨by simp [State.isRunning, hsel, hrun], by simp [step, fetch, fetchLs, hsel, hrun]⟩
    | true =>
      rcases Nat.lt_or_ge s.ls.pc.toNat 16384 with hlt | hge
      · have : ¬ 16384 ≤ s.ls.pc.toNat := by omega
        exact .inr (.inr (.inr (.inr ⟨rfl, rfl, hlt, by simp [step, fetch, fetchLs, hsel, hrun, this]⟩)))
      · exact .inr (.inr (.inr (.inl ⟨rfl, rfl, hge, by simp [step, fetch, fetchLs, hsel, hrun, hge]⟩)))

end Sys2Proof.Machine
end

