-- ==== Sys2Proof/Laws/Exec.lean ====
section
/-! SUPPORT. What a meaning can do and what a step can do, each said once as a case analysis; the jump target as bits. -/

namespace Sys2Proof.Machine

/-- Every cell of a memory reads as itself. -/
theorem Memory.sameCells_refl (m : Memory) : m.SameCells m := fun _ => rfl

/-! ### The core of a decoded instruction -/

/-- The LS decoder answers with LS instructions. -/
theorem decodeLs_core (w : Word) : (decodeLs w).core = .ls := by
  unfold decodeLs
  split_ifs <;> rfl

/-- The RS decoder answers with RS instructions. -/
theorem decodeRs_core (cells rest : List Word) (i : Instr) (h : decodeRs cells = .ok (i, rest)) : i.core = .rs := by
  cases cells with
  | nil => cases h
  | cons op ws =>
    rcases opcode_cases op with rfl | rfl | rfl | rfl | rfl | rfl | rfl | rfl | rfl | rfl | rfl | hu
    case inr.inr.inr.inr.inr.inr.inr.inr.inr.inr.inr =>
      rw [decodeRs_unknown op ws hu] at h
      cases h
      rfl
    all_goals
      simp only [decodeRs_nop, decodeRs_ldi, decodeRs_add, decodeRs_sub, decodeRs_mul, decodeRs_jmp, decodeRs_hlt,
        decodeRs_push, decodeRs_pop, decodeRs_call, decodeRs_ret, takeOne_ok, takeTwo_ok, takeThree_ok] at h
      first
        | (cases h; rfl)
        | (obtain ⟨_, _, rfl⟩ := h; rfl)
        | (obtain ⟨_, _, _, rfl⟩ := h; rfl)
        | (obtain ⟨_, _, _, _, rfl⟩ := h; rfl)

/-! ### What a meaning can do -/

/-- An RS instruction leaves the selection and the LS core alone. -/
theorem exec_rs_outside (i : Instr) (s t : State) (hc : i.core = .rs) (h : exec i s = .next t) :
    t.sel = s.sel ∧ t.ls = s.ls := by
  obtain ⟨u, hu⟩ := exec_rs i s hc
  rw [hu] at h
  cases h
  exact ⟨rfl, rfl⟩

/-- An LS instruction leaves the selection and the RS core alone. -/
theorem exec_ls_outside (i : Instr) (s t : State) (hc : i.core = .ls) (h : exec i s = .next t) :
    t.sel = s.sel ∧ t.rs = s.rs := by
  obtain ⟨u, hu⟩ := exec_ls i s hc
  rw [hu] at h
  cases h
  exact ⟨rfl, rfl⟩

/-- The two ends of a pop. -/
theorem RsState.pop_cases (o : Word) (s : RsState) :
    (s.sp.toNat < 1024 ∧ s.pop o = (s.mem.read s.sp.toNat, { s with sp := s.sp + 1 })) ∨
    (1024 ≤ s.sp.toNat ∧ s.pop o = (popSentinel, s.raise o .stackUnderflow opcPop)) := by
  rcases Nat.lt_or_ge s.sp.toNat 1024 with hl | hg
  · exact .inl ⟨hl, RsState.pop_some _ _ hl⟩
  · exact .inr ⟨hg, RsState.pop_empty _ _ hg⟩

/-- Everything an RS instruction can make of the RS core. -/
theorem exec_rs_cases (i : Instr) (s t : State) (hc : i.core = .rs) (h : exec i s = .next t) :
    (∃ d v, writesRegister i = true ∧ usesStack i = false ∧ t.rs = (s.rs.advance (encode i).length).setReg d v) ∨
    (∃ w, writesRegister i = true ∧
      t.rs = (s.rs.advance (encode i).length).raise s.rs.pc .registerIndexOutOfRange w) ∨
    (∃ v, i = .push v ∧ t.rs = (s.rs.advance 2).push s.rs.pc v) ∨
    (∃ d, i = .pop (regWord d) ∧
      t.rs = ((s.rs.advance 2).pop s.rs.pc).2.setReg d ((s.rs.advance 2).pop s.rs.pc).1) ∨
    (∃ w, i = .jmp w ∧ t.rs = { s.rs with pc := w }) ∨
    (i = .hlt ∧ t.rs = (s.rs.advance 1).halt) ∨
    (i = .nop ∧ t.rs = s.rs.advance 1) ∨
    (∃ w, (encode i).length = 1 ∧ (∀ a, i ≠ .jmp a) ∧ i ≠ .hlt ∧
      t.rs = (s.rs.advance 1).raise s.rs.pc .unknownOpcode w) := by
  have arith : ∀ (op : Word → Word → Word) (a b c : Word),
      (∃ d v, s.rs.arith op a b c = (s.rs.advance 4).setReg d v) ∨
      (∃ w, s.rs.arith op a b c = (s.rs.advance 4).raise s.rs.pc .registerIndexOutOfRange w) :=
    fun op a b c => RsState.arith_cases op a b c s.rs
  cases i with
  | sentinel => cases hc
  | addi _ _ _ => cases hc
  | j _ => cases hc
  | unrecognised _ => cases hc
  | nop => cases h; simp
  | hlt => cases h; simp
  | jmp w => cases h; simp
  | call => cases h; exact .inr (.inr (.inr (.inr (.inr (.inr (.inr ⟨_, rfl, by simp, by simp, rfl⟩))))))
  | ret => cases h; exact .inr (.inr (.inr (.inr (.inr (.inr (.inr ⟨_, rfl, by simp, by simp, rfl⟩))))))
  | unknown w => cases h; exact .inr (.inr (.inr (.inr (.inr (.inr (.inr ⟨_, rfl, by simp, by simp, rfl⟩))))))
  | push v => cases h; exact .inr (.inr (.inl ⟨v, rfl, rfl⟩))
  | ldi dst imm =>
    cases h
    rcases RsState.withRegister_cases s.rs.pc dst (s.rs.advance 3) (fun d => (s.rs.advance 3).setReg d imm) with
      ⟨d, _, hh⟩ | ⟨_, hh⟩
    · exact .inl ⟨d, imm, rfl, rfl, hh⟩
    · exact .inr (.inl ⟨_, rfl, hh⟩)
  | add a b c =>
    cases h
    rcases arith rsAdd a b c with ⟨d, v, hh⟩ | ⟨_, hh⟩
    · exact .inl ⟨d, v, rfl, rfl, hh⟩
    · exact .inr (.inl ⟨_, rfl, hh⟩)
  | sub a b c =>
    cases h
    rcases arith rsSub a b c with ⟨d, v, hh⟩ | ⟨_, hh⟩
    · exact .inl ⟨d, v, rfl, rfl, hh⟩
    · exact .inr (.inl ⟨_, rfl, hh⟩)
  | mul a b c =>
    cases h
    rcases arith rsMul a b c with ⟨d, v, hh⟩ | ⟨_, hh⟩
    · exact .inl ⟨d, v, rfl, rfl, hh⟩
    · exact .inr (.inl ⟨_, rfl, hh⟩)
  | pop dst =>
    cases h
    rcases RsState.withRegister_cases s.rs.pc dst (s.rs.advance 2)
        (fun d => ((s.rs.advance 2).pop s.rs.pc).2.setReg d ((s.rs.advance 2).pop s.rs.pc).1) with
      ⟨d, rfl, hh⟩ | ⟨_, hh⟩
    · exact .inr (.inr (.inr (.inl ⟨d, rfl, hh⟩)))
    · exact .inr (.inl ⟨_, rfl, hh⟩)

/-- Everything an LS instruction can make of the LS core. -/
theorem exec_ls_cases (i : Instr) (s t : State) (hc : i.core = .ls) (h : exec i s = .next t) :
    (∃ w, i = .j w ∧ t.ls = { s.ls with pc := jumpTarget (s.ls.pc + 4) w }) ∨
    (i = .sentinel ∧ t.ls = s.ls.advance.halt) ∨
    (∃ src dst imm, i = .addi src dst imm ∧ t.ls = s.ls.advance.setReg dst (lsAdd (s.ls.reg src) imm)) ∨
    (∃ w, i = .unrecognised w ∧ t.ls = s.ls.advance) := by
  cases i <;> first | (cases hc; done) | (cases h)
  · exact .inr (.inl ⟨rfl, rfl⟩)
  · exact .inr (.inr (.inl ⟨_, _, _, rfl, rfl⟩))
  · exact .inl ⟨_, rfl, rfl⟩
  · exact .inr (.inr (.inr ⟨_, rfl, rfl⟩))

/-! ### What a step can do -/

/-- Everything a step that answers `t` can have been, with the core of the instruction it ran. -/
theorem step_inversion (s t : State) (h : step s = .next t) :
    (t = s ∧ s.isRunning = false) ∨
    (s.sel = .rs ∧ s.rs.running = true ∧ (∃ e, decode .rs s.rs.fetchCells = .error e) ∧
      t = { s with rs := s.rs.fetchFault s.rs.fetchCells.length }) ∨
    (∃ i rest, s.sel = .rs ∧ s.rs.running = true ∧ i.core = .rs ∧ decode .rs s.rs.fetchCells = .ok (i, rest) ∧
      exec i s = .next t) ∨
    (s.sel = .ls ∧ s.ls.running = true ∧ 16384 ≤ s.ls.pc.toNat ∧ t = { s with ls := s.ls.halt }) ∨
    (s.sel = .ls ∧ s.ls.running = true ∧ s.ls.pc.toNat < 16384 ∧ exec (decodeLs s.ls.fetchWord) s = .next t) := by
  rcases step_cases s with ⟨hr, e⟩ | ⟨h1, h2, he, e⟩ | ⟨i, rest, h1, h2, hd, e⟩ | ⟨h1, h2, h3, e⟩ | ⟨h1, h2, h3, e⟩ <;>
    rw [e] at h
  · cases h
    exact .inl ⟨rfl, hr⟩
  · cases h
    exact .inr (.inl ⟨h1, h2, he, rfl⟩)
  · exact .inr (.inr (.inl ⟨i, rest, h1, h2, decodeRs_core _ _ _ hd, hd, h⟩))
  · cases h
    exact .inr (.inr (.inr (.inl ⟨h1, h2, h3, rfl⟩)))
  · exact .inr (.inr (.inr (.inr ⟨h1, h2, h3, h⟩)))

/-- The fetched LS word by division (R64, R66). -/
theorem LsState.fetchWord_eq (s : LsState) : s.fetchWord = s.mem.read (s.pc.toNat / 4) := by
  simp [LsState.fetchWord, Nat.shiftRight_eq_div_pow]

/-! ### The jump target -/

/-- The target as a concatenation: the top four bits of the advanced `pc`, the field, two zero bits (R103, R181). -/
theorem jumpTarget_eq (p : Word) (t : BitVec 26) : jumpTarget p t = p.extractLsb' 28 4 ++ (t ++ 0#2) := by
  apply BitVec.eq_of_getLsbD_eq
  intro i hi
  simp only [jumpTarget, Config.lsHighMask, BitVec.getLsbD_or, BitVec.getLsbD_and, BitVec.getLsbD_append]
  interval_cases i <;> simp

/-- The target's low 28 bits. -/
theorem jumpTarget_offset (p : Word) (t : BitVec 26) : (jumpTarget p t).toNat % 2 ^ 28 = 4 * t.toNat := by
  have h : (jumpTarget p t).extractLsb' 0 28 = (t.setWidth 28 <<< 2) := by
    ext i hi
    interval_cases i <;> simp [jumpTarget, Config.lsHighMask]
  have h2 := congrArg BitVec.toNat h
  simp only [BitVec.extractLsb'_toNat, Nat.shiftRight_zero, BitVec.toNat_shiftLeft, BitVec.toNat_setWidth,
    Nat.shiftLeft_eq] at h2
  rw [h2]
  have := t.isLt
  omega

/-! ### Cells and `pc` -/

/-- Fetched cells depend on memory alone. -/
theorem RsState.cellsFrom_congr (s t : RsState) (h : t.mem = s.mem) (n : Nat) (a : Word) :
    t.cellsFrom n a = s.cellsFrom n a := by
  induction n generalizing a with
  | zero => rfl
  | succ n ih => simp only [RsState.cellsFrom, RsState.memRead, h, ih]

/-- One operand cell in memory. -/
theorem RsState.cellsFrom_one (s : RsState) (a : Word) (h : a.toNat + 1 ≤ 1024) :
    s.cellsFrom 1 a = [s.mem.read a.toNat] := by
  rw [RsState.cellsFrom_in _ _ _ (by omega)]
  rfl

/-- Two operand cells in memory. -/
theorem RsState.cellsFrom_two (s : RsState) (a : Word) (h : a.toNat + 2 ≤ 1024) :
    s.cellsFrom 2 a = [s.mem.read a.toNat, s.mem.read (a.toNat + 1)] := by
  have hs := toNat_succ_of_lt a (by omega)
  rw [RsState.cellsFrom_in _ _ _ (by omega), RsState.cellsFrom_one _ _ (by omega), hs]

/-- Three operand cells in memory. -/
theorem RsState.cellsFrom_three (s : RsState) (a : Word) (h : a.toNat + 3 ≤ 1024) :
    s.cellsFrom 3 a = [s.mem.read a.toNat, s.mem.read (a.toNat + 1), s.mem.read (a.toNat + 1 + 1)] := by
  have hs := toNat_succ_of_lt a (by omega)
  rw [RsState.cellsFrom_in _ _ _ (by omega), RsState.cellsFrom_two _ _ (by omega), hs]

/-- Cell by cell and all at once, `pc` moves the same way. -/
theorem RsState.advance_succ (s : RsState) (n : Nat) :
    ({ s with pc := s.pc + 1 } : RsState).advance n = s.advance (n + 1) := by
  simp only [RsState.advance]
  congr 1
  rw [BitVec.add_assoc]
  congr 1
  apply BitVec.eq_of_toNat_eq
  simp
  omega

end Sys2Proof.Machine
end

