-- ==== Sys2Proof/Laws/HostPort.lean ====
section
/-! SUPPORT. The host's load ports: what one load does, what a bulk load does with its next word, and what the host's `reset` keeps
of the selected instance. -/

namespace Sys2Proof.Machine

@[simp] theorem State.poke_sel (a : Nat) (v : Word) (s : State) : (s.poke a v).sel = s.sel := by
  unfold State.poke
  cases s.sel <;> rfl

@[simp] theorem State.poke_capacity (a : Nat) (v : Word) (s : State) : (s.poke a v).capacity = s.capacity := by
  simp only [State.capacity, State.poke_sel]

/-- One cell of the selected instance is written and every other reads as before. -/
theorem State.read_poke (a : Nat) (v : Word) (s : State) (b : Nat) :
    (s.poke a v).memory.read b = if b = a then v else s.memory.read b := by
  unfold State.poke State.memory
  cases s.sel <;> simp only <;> split_ifs with h <;>
    first
      | (subst h; exact Memory.read_write_self _ _ _)
      | exact Memory.read_write_other _ _ _ _ h

/-- A write to the RS instance's memory and nothing else. -/
theorem State.poke_rs (a : Nat) (v : Word) (s : State) (h : s.sel = .rs) :
    s.poke a v = { s with rs := { s.rs with mem := s.rs.mem.write a v } } := by
  simp [State.poke, h]

/-- A write to the LS instance's memory and nothing else. -/
theorem State.poke_ls (a : Nat) (v : Word) (s : State) (h : s.sel = .ls) :
    s.poke a v = { s with ls := { s.ls with mem := s.ls.mem.write a v } } := by
  simp [State.poke, h]

/-- A load in range (R79). -/
theorem loadWord_in (a : Nat) (v : Word) (s : State) (h : a < s.capacity) : loadWord a v s = .next (s.poke a v) :=
  if_pos h

/-- A load out of range (R79). -/
theorem loadWord_out (a : Nat) (v : Word) (s : State) (h : s.capacity ≤ a) :
    loadWord a v s = .fault (.hostAddressOutOfRange a) :=
  if_neg (Nat.not_lt.mpr h)

/-- The next word of a bulk load, in range (R80). -/
theorem loadImage_cons_in (base : Nat) (w : Word) (ws : List Word) (s : State) (h : base < s.capacity) :
    loadImage base (w :: ws) s = loadImage (base + 1) ws (s.poke base w) := by
  simp [loadImage, loadWord_in base w s h]

/-- The next word of a bulk load, out of range: it and all that follow write nothing, and its address is reported (R80). -/
theorem loadImage_out (base : Nat) (ws : List Word) (s : State) (h : s.capacity ≤ base) :
    (loadImage base ws s).1 = s ∧
      (loadImage base ws s).2 = if ws = [] then none else some (.hostAddressOutOfRange base) := by
  induction ws generalizing base with
  | nil => exact ⟨rfl, rfl⟩
  | cons w ws ih =>
    simp only [loadImage, loadWord_out base w s h]
    exact ⟨(ih (base + 1) (by omega)).1, by simp⟩

/-- The next word of a bulk load, either way: the state after it. -/
theorem loadImage_cons_cases (base : Nat) (w : Word) (ws : List Word) (s : State) :
    (base < s.capacity ∧ loadImage base (w :: ws) s = loadImage (base + 1) ws (s.poke base w)) ∨
    (s.capacity ≤ base ∧ loadImage base (w :: ws) s = (s, some (.hostAddressOutOfRange base))) := by
  rcases Nat.lt_or_ge base s.capacity with h | h
  · exact .inl ⟨h, loadImage_cons_in base w ws s h⟩
  · obtain ⟨h1, h2⟩ := loadImage_out base (w :: ws) s h
    exact .inr ⟨h, Prod.ext h1 (by rw [h2]; simp)⟩

@[simp] theorem State.hostReset_sel (s : State) : s.hostReset.sel = s.sel := by
  unfold State.hostReset
  cases s.sel <;> rfl

@[simp] theorem State.hostReset_memory (s : State) : s.hostReset.memory = s.memory := by
  unfold State.hostReset State.memory
  cases s.sel <;> simp [RsState.hostReset, LsState.hostReset]

@[simp] theorem State.hostReset_capacity (s : State) : s.hostReset.capacity = s.capacity := by
  simp only [State.capacity, State.hostReset_sel]

@[simp] theorem State.hostReset_isRunning (s : State) : s.hostReset.isRunning = true := by
  unfold State.hostReset State.isRunning
  cases s.sel <;> simp [RsState.hostReset, LsState.hostReset]

/-- The listed cells of a view, one by one (R83). -/
theorem Memory.getElem?_firstCells (cap n a : Nat) (m : Memory) (h : a < min n cap) :
    (m.firstCells cap n)[a]? = some (m.read a) := by
  simp [Memory.firstCells, List.getElem?_range h]

@[simp] theorem Memory.length_firstCells (cap n : Nat) (m : Memory) : (m.firstCells cap n).length = min n cap := by
  simp [Memory.firstCells]

end Sys2Proof.Machine
end

