-- ==== Sys2Proof/Laws/PerInstr.lean ====
section
/-! SUPPORT. The family CellCount of statements made per instruction: how many cells an instruction's encoding has (30_encoding R90,
R91, R99), one lemma per constructor. -/

namespace Sys2Proof.Laws.CellCount

/-- The encoding has as many cells as the instruction's length says, at least the opcode cell and at most the longest
instruction's four (R90), and exactly one on the LS core (R99). -/
def Statement (i : Instr) : Prop :=
  (encode i).length = i.length ∧ 1 ≤ i.length ∧ i.length ≤ maxLength ∧ (i.core = .ls → i.length = 1)

/-- An instruction of one cell. -/
theorem of_one (i : Instr) (he : (encode i).length = 1) (hl : i.length = 1) : Statement i :=
  ⟨he.trans hl.symm, hl.ge, hl.trans_le (Nat.le_of_ble_eq_true rfl), fun _ => hl⟩

/-- An RS instruction of two to four cells. -/
theorem of_rs (i : Instr) (n : Nat) (he : (encode i).length = n) (hl : i.length = n) (h1 : Nat.ble 1 n = true)
    (h4 : Nat.ble n maxLength = true) (hc : i.core ≠ .ls) : Statement i :=
  ⟨he.trans hl.symm, hl ▸ Nat.le_of_ble_eq_true h1, hl ▸ Nat.le_of_ble_eq_true h4, fun h => absurd h hc⟩

theorem nop : Statement .nop := of_one _ rfl rfl
theorem ldi (dst imm : Word) : Statement (.ldi dst imm) := of_rs _ 3 rfl rfl rfl rfl nofun
theorem add (dst a b : Word) : Statement (.add dst a b) := of_rs _ 4 rfl rfl rfl rfl nofun
theorem sub (dst a b : Word) : Statement (.sub dst a b) := of_rs _ 4 rfl rfl rfl rfl nofun
theorem mul (dst a b : Word) : Statement (.mul dst a b) := of_rs _ 4 rfl rfl rfl rfl nofun
theorem jmp (target : Word) : Statement (.jmp target) := of_rs _ 2 rfl rfl rfl rfl nofun
theorem hlt : Statement .hlt := of_one _ rfl rfl
theorem push (value : Word) : Statement (.push value) := of_rs _ 2 rfl rfl rfl rfl nofun
theorem pop (dst : Word) : Statement (.pop dst) := of_rs _ 2 rfl rfl rfl rfl nofun
theorem call : Statement .call := of_one _ rfl rfl
theorem ret : Statement .ret := of_one _ rfl rfl
theorem unknown (op : Word) : Statement (.unknown op) := of_one _ rfl rfl
theorem sentinel : Statement .sentinel := of_one _ rfl rfl
theorem addi (src dst : BitVec 5) (imm : BitVec 16) : Statement (.addi src dst imm) := of_one _ rfl rfl
theorem j (target : BitVec 26) : Statement (.j target) := of_one _ rfl rfl
theorem unrecognised (w : Word) : Statement (.unrecognised w) := of_one _ rfl rfl

end Sys2Proof.Laws.CellCount
end

