-- ==== Sys2Proof/Laws/Reference.lean ====
section
/-! SUPPORT. The pseudocode transcription's own operations: what its fetch loop gives, and its register accesses in the terms of the
model. -/

namespace Sys2Proof.Machine

/-- A fetch with a cell to read (R121). -/
theorem refFetchCell_in (o : Word) (s : RsState) (h : s.pc.toNat < 1024) :
    refFetchCell o s = .ok (s.mem.read s.pc.toNat, { s with pc := s.pc + 1 }) := by
  rw [refFetchCell, if_neg]
  simpa using h

/-- A fetch with none (R121). -/
theorem refFetchCell_out (o : Word) (s : RsState) (h : 1024 ≤ s.pc.toNat) :
    refFetchCell o s = .error (s.raise o .addressOutOfRange s.pc) := by
  rw [refFetchCell, if_pos]
  simpa using h

/-- The operand loop with every cell in memory (R123). -/
theorem refFetchOperands_in (o : Word) (shape : List OperandKind) (s : RsState)
    (h : s.pc.toNat + shape.length ≤ 1024) :
    refFetchOperands o shape s = .ok (s.cellsFrom shape.length s.pc, s.advance shape.length) := by
  induction shape generalizing s with
  | nil => simp [refFetchOperands, RsState.cellsFrom, RsState.advance]
  | cons k shape ih =>
    simp only [List.length_cons] at h
    have hlt : s.pc.toNat < 1024 := by omega
    have hs := toNat_succ_of_lt _ hlt
    rw [refFetchOperands, refFetchCell_in o s hlt]
    simp only
    rw [ih { s with pc := s.pc + 1 } (by simp only [hs]; omega), List.length_cons, RsState.cellsFrom_in _ _ _ hlt,
      RsState.advance_succ]
    simp only [RsState.cellsFrom_congr s { s with pc := s.pc + 1 } rfl]

/-- The operand loop with a cell past the end of memory (R123). -/
theorem refFetchOperands_out (o : Word) (shape : List OperandKind) (s : RsState) (h0 : s.pc.toNat ≤ 1024)
    (h : 1024 < s.pc.toNat + shape.length) :
    refFetchOperands o shape s = .error ((s.advance (1024 - s.pc.toNat)).raise o .addressOutOfRange 1024) := by
  induction shape generalizing s with
  | nil => simp at h; omega
  | cons k shape ih =>
    simp only [List.length_cons] at h
    rw [refFetchOperands]
    by_cases hlt : s.pc.toNat < 1024
    · have hs := toNat_succ_of_lt _ hlt
      rw [refFetchCell_in o s hlt]
      simp only
      rw [ih { s with pc := s.pc + 1 } (by simp only [hs]; omega) (by simp only [hs]; omega)]
      simp only
      rw [RsState.advance_succ, hs, show 1024 - (s.pc.toNat + 1) + 1 = 1024 - s.pc.toNat by omega]
    · have e : s.pc = 1024 := by
        apply BitVec.eq_of_toNat_eq
        simp
        omega
      rw [refFetchCell_out o s (by omega), e]
      simp [RsState.advance]

/-- The register-index loop of R124 at a register operand. -/
theorem refBadRegister_registerRef (w : Word) (shape : List OperandKind) (ws : List Word) :
    refBadRegister (.registerRef :: shape) (w :: ws) =
      if isRegWord w = true then refBadRegister shape ws else some w := by
  rw [refBadRegister]
  simp only [isRegWord, s32, Bool.and_eq_true, decide_eq_true_eq]
  rfl

/-- A checked index word writes its register. -/
@[simp] theorem refSetReg_regWord (d : Fin Config.rsNReg) (v : Word) (s : RsState) :
    refSetReg (regWord d) v s = s.setReg d v := by
  unfold refSetReg RsState.setReg
  congr 1
  apply Vector.ext
  intro i hi
  simp [Vector.getElem_setIfInBounds, Vector.getElem_set]

/-- A checked index word reads its register. -/
@[simp] theorem refReg_regWord (d : Fin Config.rsNReg) (s : RsState) : refReg (regWord d) s = s.reg d := by
  unfold refReg RsState.reg
  rw [toNat_regWord, List.getD_eq_getElem?_getD, List.getElem?_eq_getElem (by rw [Vector.length_toList]; exact d.isLt)]
  simp [Vector.get_eq_getElem]

end Sys2Proof.Machine
end

