-- ==== Sys2Proof/Tests/Slice0.lean ====
section
/-! SUPPORT. Own tests. Expected results come from spec/95_test_vectors.md (the vector's number stands before each test) or from words
written out by hand from 30_encoding; the last part gives, for each statement with hypotheses, states and operands that meet
them. -/

namespace Sys2Proof.Tests

open Sys2Proof.Machine

/-! ### Small states -/

/-- The RS launch state with `cells` stored from `base` on and `pc` at `base`. -/
def rsAt (base : Nat) (cells : List Word) : State :=
  { State.reset with rs := { RsState.afterReset with mem := Memory.writeAll [] base cells, pc := BitVec.ofNat 32 base } }

/-- `rsAt` with registers. -/
def rsRegs (x : Vector Word Config.rsNReg) (cells : List Word) : State :=
  { rsAt 0 cells with rs := { (rsAt 0 cells).rs with x := x } }

/-- `rsAt` with a stack pointer. -/
def rsSp (sp : Word) (base : Nat) (cells : List Word) : State :=
  { rsAt base cells with rs := { (rsAt base cells).rs with sp := sp } }

/-- The LS launch state with one word stored at cell `pc / 4`. -/
def lsAt (pc : Nat) (w : Word) : State :=
  { State.reset with
    sel := .ls
    ls := { LsState.afterReset with mem := Memory.write [] (pc / 4) w, pc := BitVec.ofNat 32 pc } }

/-- `lsAt 0` with one register set. -/
def lsReg (r : BitVec 5) (v w : Word) : State := { lsAt 0 w with ls := (lsAt 0 w).ls.setReg r v }

/-! ### WellFormed refuses what is no instruction -/

-- R93: the eleven numbers are no unknown opcodes; R92: the whole cell is compared.
theorem test_wellFormed_unknown : (Instr.unknown 0).wellFormed = false ∧ (Instr.unknown 10).wellFormed = false ∧
    (Instr.unknown 11).wellFormed = true ∧ (Instr.unknown 0x100).wellFormed = true := by decide

-- R105: the zero word and the two decoded forms are not unrecognised words.
theorem test_wellFormed_unrecognised : (Instr.unrecognised 0).wellFormed = false ∧
    (Instr.unrecognised 0x20410003).wellFormed = false ∧ (Instr.unrecognised 0x0C000004).wellFormed = false ∧
    (Instr.unrecognised 1).wellFormed = true := by decide

/-! ### Decoding: cells written out from R93 and R108, words from R101 and R102 -/

theorem test_decode_nop : decode .rs [0, 7] = .ok (.nop, [7]) := by decide
theorem test_decode_ldi : decode .rs [1, 2, 77, 6] = .ok (.ldi 2 77, [6]) := by decide
theorem test_decode_add : decode .rs [2, 3, 1, 2] = .ok (.add 3 1 2, []) := by decide
theorem test_decode_sub : decode .rs [3, 0, 2, 1] = .ok (.sub 0 2 1, []) := by decide
theorem test_decode_mul : decode .rs [4, 2, 0, 1, 9] = .ok (.mul 2 0 1, [9]) := by decide
theorem test_decode_jmp : decode .rs [5, 0xFFFFFFFF] = .ok (.jmp 0xFFFFFFFF, []) := by decide
theorem test_decode_hlt : decode .rs [6] = .ok (.hlt, []) := by decide
theorem test_decode_push : decode .rs [7, 55, 8] = .ok (.push 55, [8]) := by decide
theorem test_decode_pop : decode .rs [8, 1] = .ok (.pop 1, []) := by decide
theorem test_decode_call : decode .rs [9, 5] = .ok (.call, [5]) := by decide
theorem test_decode_ret : decode .rs [10] = .ok (.ret, []) := by decide
theorem test_decode_unknown : decode .rs [11, 1] = .ok (.unknown 11, [1]) ∧
    decode .rs [0x80000001] = .ok (.unknown 0x80000001, []) := by decide
theorem test_decode_missing : decode .rs [2, 0, 1] = .error .missingOperand ∧ decode .rs [] = .error .noCell := by decide
theorem test_decode_sentinel : decodeLs 0b00000000000000000000000000000000 = .sentinel := by decide
-- opcode 001000, src 00010, dst 00001, immediate 3
theorem test_decode_addi : decodeLs 0b00100000010000010000000000000011 = .addi 2 1 3 := by decide
-- opcode 001000, src 00001, dst 00010, immediate 0x8000
theorem test_decode_addi_fields : decodeLs 0b00100000001000101000000000000000 = .addi 1 2 0x8000 := by decide
-- opcode 000011, target 4; and the all-ones target
theorem test_decode_j : decodeLs 0b00001100000000000000000000000100 = .j 4 ∧
    decodeLs 0b00001111111111111111111111111111 = .j 0x3FFFFFF := by decide
theorem test_decode_unrecognised : decodeLs 0x00000001 = .unrecognised 1 ∧
    decodeLs 0b00000100000000000000000000000000 = .unrecognised 0x04000000 := by decide

-- R91, R101, R102: the encoder against the same written-out cells.
theorem test_encode_rs : encode (.sub 0 2 1) = [3, 0, 2, 1] ∧ encode (.ldi 2 77) = [1, 2, 77] ∧
    encode (.pop 1) = [8, 1] := by decide
theorem test_encode_ls : encode (.addi 2 1 3) = [0x20410003] ∧ encode (.addi 31 31 0x7FFF) = [0x23FF7FFF] ∧
    encode (.j 0x1000) = [0x0C001000] := by decide

/-! ### The host's placement -/

theorem test_table_add : decodeTableWord 128 (2 + 3 * 2 ^ 32 + 1 * 2 ^ 64 + 2 * 2 ^ 96) = some (.add 3 1 2) := by decide
theorem test_table_addi : decodeTableWord 32 0x20410003 = some (.addi 2 1 3) := by decide
theorem test_table_nop : decodeTableWord 32 0 = some .nop := by decide
theorem test_table_pop_short : decodeTableWord 32 8 = some (.pop 0) := by decide
theorem test_placed_push : ((State.reset.withFetchWord 64 (7 + 55 * 2 ^ 32)).stepped.rs.mem.read 1023) = 55 := by decide
theorem test_placed_addi : ((State.reset.withFetchWord 32 0x2000002A).stepped.ls.reg 0) = 42 := by decide
theorem test_placed_j_after_constructed :
    ((State.constructed.withFetchWord 32 0x0C000004).stepped.ls.pc) = 16 := by decide

/-! ### One step of each instruction -/

-- V1
theorem test_nop : (rsAt 5 [0]).stepped.rs.pc = 6 ∧ (rsAt 5 [0]).stepReturns = true := by decide
-- V3
theorem test_ldi : (rsAt 0 [1, 3, 0x80000000]).stepped.rs.reg 3 = 0x80000000 := by decide
-- V6: index −1 is not reduced to 3
theorem test_ldi_bad_register : (rsAt 0 [1, 0xFFFFFFFF, 9]).stepped.rs.faultRecord =
    (.registerIndexOutOfRange, 0, 0xFFFFFFFF) ∧ (rsAt 0 [1, 0xFFFFFFFF, 9]).stepped.rs.pc = 3 := by decide
-- V11
theorem test_add_wraps : (rsRegs #v[0, 0x7FFFFFFF, 1, 0] [2, 0, 1, 2]).stepped.rs.reg 0 = 0x80000000 := by decide
-- V25: the first bad operand in the order dst, a, b
theorem test_add_bad_register : (rsAt 0 [2, 0, 7, 9]).stepped.rs.faultRecord = (.registerIndexOutOfRange, 0, 7) ∧
    (rsAt 0 [2, 0, 7, 9]).stepped.rs.pc = 4 := by decide
-- V18: operand order
theorem test_sub_order : (rsRegs #v[0, 10, 3, 0] [3, 0, 2, 1]).stepped.rs.reg 0 = 0xFFFFFFF9 := by decide
-- V15
theorem test_sub_wraps : (rsRegs #v[0, 0x80000000, 1, 0] [3, 0, 1, 2]).stepped.rs.reg 0 = 0x7FFFFFFF := by decide
-- V21
theorem test_mul_wraps : (rsRegs #v[0x80000000, 0xFFFFFFFF, 0, 0] [4, 2, 0, 1]).stepped.rs.reg 2 = 0x80000000 := by decide
-- V24
theorem test_mul_low : (rsRegs #v[123456789, 987654321, 0, 0] [4, 2, 0, 1]).stepped.rs.reg 2 = 0xFBFF5385 := by decide
-- V33, step 1
theorem test_jmp_unchecked : (rsAt 0 [5, 0xFFFFFFFF]).stepped.rs.pc = 0xFFFFFFFF ∧
    (rsAt 0 [5, 0xFFFFFFFF]).stepReturns = true := by decide
-- V36: HLT in the last cell is legal
theorem test_hlt_last_cell : (rsAt 1023 [6]).stepped.rs.pc = 1024 ∧ (rsAt 1023 [6]).stepped.rs.runState = .halted ∧
    (rsAt 1023 [6]).stepped.rs.faultCode = .none := by decide
-- V43: PUSH over its own opcode cell
theorem test_push_over_itself : (rsSp 1 0 [7, 99, 6]).stepped.rs.mem.read 0 = 99 ∧
    (rsSp 1 0 [7, 99, 6]).stepped.rs.sp = 0 ∧ (rsSp 1 0 [7, 99, 6]).stepReturns = true := by decide
-- V42
theorem test_push_full : (rsSp 0 0 [7, 99]).stepped.rs.faultRecord = (.stackOverflow, 0, 7) ∧
    (rsSp 0 0 [7, 99]).stepped.rs.mem = (rsSp 0 0 [7, 99]).rs.mem ∧ (rsSp 0 0 [7, 99]).stepped.rs.pc = 2 := by decide
-- V41, its stack cell being cell 3 here
theorem test_pop : (rsSp 3 0 [8, 1, 0, 55]).stepped.rs.reg 1 = 55 ∧ (rsSp 3 0 [8, 1, 0, 55]).stepped.rs.sp = 4 ∧
    (rsSp 3 0 [8, 1, 0, 55]).stepped.rs.mem.read 3 = 55 := by decide
-- V44
theorem test_pop_empty : (rsAt 0 [8, 2]).stepped.rs.faultRecord = (.stackUnderflow, 0, 8) ∧
    (rsAt 0 [8, 2]).stepped.rs.reg 2 = 0xFFFFFFFF ∧ (rsAt 0 [8, 2]).stepped.rs.sp = 1024 := by decide
-- V50
theorem test_call : (rsAt 0 [9, 5]).stepped.rs.faultRecord = (.unknownOpcode, 0, 9) ∧
    (rsAt 0 [9, 5]).stepped.rs.pc = 1 := by decide
-- V51
theorem test_ret : (rsAt 0 [10]).stepped.rs.faultRecord = (.unknownOpcode, 0, 10) ∧
    (rsAt 0 [10]).stepped.rs.sp = 1024 := by decide
-- V52
theorem test_unknown : (rsAt 3 [11]).stepped.rs.faultRecord = (.unknownOpcode, 3, 11) ∧
    (rsAt 3 [11]).stepped.rs.pc = 4 := by decide
-- V54: the whole cell is compared
theorem test_unknown_high_bits : (rsAt 0 [0x100]).stepped.rs.faultRecord = (.unknownOpcode, 0, 0x100) := by decide
-- V87
theorem test_sentinel : (lsAt 0 0).stepped.ls.pc = 4 ∧ (lsAt 0 0).stepReturns = false ∧
    (lsAt 0 0).stepped.stepped = (lsAt 0 0).stepped := by decide
-- V72
theorem test_addi_negative : (lsReg 1 0x00010000 0x20228000).stepped.ls.reg 2 = 0x00008000 := by decide
-- V73
theorem test_addi_wraps : (lsReg 1 0xFFFFFFFF 0x20210001).stepped.ls.reg 1 = 0 := by decide
-- V80
theorem test_j : (lsAt 8 0x0C000004).stepped.ls.pc = 16 ∧ (lsAt 8 0x0C000004).stepReturns = true := by decide
-- S8: the formula with high bits set
theorem test_j_high_bits : jumpTarget 0x10000008 4 = 0x10000010 ∧ jumpTarget 0xA0000004 0x3FFFFFF = 0xAFFFFFFC := by
  decide
-- V84
theorem test_unrecognised : (lsAt 0 0xFFFFFFFF).stepped = { lsAt 0 0xFFFFFFFF with ls := (lsAt 0 0xFFFFFFFF).ls.advance } := by
  decide
-- V85
theorem test_unrecognised_one : (lsAt 0 1).stepped.ls.pc = 4 ∧ (lsAt 0 1).stepReturns = true := by decide

/-! ### The step around the instructions, and the host's transactions -/

-- V27
theorem test_missing_operand : (rsAt 1021 [2, 0, 1]).stepped.rs.faultRecord = (.addressOutOfRange, 1021, 1024) ∧
    (rsAt 1021 [2, 0, 1]).stepped.rs.pc = 1024 := by decide
-- V55: the opcode check comes before any operand fetch
theorem test_unknown_before_operands : (rsAt 1023 [9]).stepped.rs.faultRecord = (.unknownOpcode, 1023, 9) := by decide
-- V61: the comparison is unsigned
theorem test_pc_past_memory : (rsAt 0x80000000 []).stepped.rs.faultRecord =
    (.addressOutOfRange, 0x80000000, 0x80000000) := by decide
-- V45: a bad register index comes before the stack
theorem test_register_before_stack : (rsAt 0 [8, 4]).stepped.rs.faultRecord = (.registerIndexOutOfRange, 0, 4) := by decide
-- V63
theorem test_not_started : State.constructed.stepped = State.constructed ∧ State.constructed.stepReturns = false := by
  decide
-- V88
theorem test_ls_past_end : (lsAt 16384 0).stepped.ls.pc = 16384 ∧ (lsAt 16384 0).stepReturns = false := by decide
-- V89, step 1
theorem test_ls_last_word : (lsAt 16380 0x20010007).stepped.ls.reg 1 = 7 ∧
    (lsAt 16380 0x20010007).stepped.ls.pc = 16384 := by decide
-- S10
theorem test_load_word : (Session.construct .rs).act (.loadWord 1024 1) =
    (Session.construct .rs, .error (.hostAddressOutOfRange 1024)) ∧
    ((Session.construct .ls).act (.loadWord 4095 0xDEADBEEF)).1.core.memory.read 4095 = 0xDEADBEEF := by decide
-- R80 with D23: the word in range is written, the one past memory is reported
theorem test_load_image_over_the_end :
    ((Session.construct .rs).act (.loadImage 1023 [5, 6])).1.core.rs.mem = [(1023, 5)] ∧
    ((Session.construct .rs).act (.loadImage 1023 [5, 6])).2 = .error (.hostAddressOutOfRange 1024) := by decide
-- R29: the view tells Idle from Halted (V34's end and V63's start)
theorem test_snapshot_run_state : (State.constructed.snapshot 0).runState = .idle ∧
    ((rsAt 0 [6]).stepped.snapshot 0).runState = .halted ∧ ((rsAt 0 [6]).stepped.snapshot 2).cells = [6, 0] := by decide
-- P3: reset after a fault
theorem test_reset_after_fault : (rsAt 0 [8, 2]).stepped.hostReset = rsAt 0 [8, 2] := by decide

-- the table of R26 and R200
theorem test_fault_numbers : FaultCode.none.number = 0 ∧ FaultCode.unknownOpcode.number = 1 ∧
    FaultCode.stackOverflow.number = 2 ∧ FaultCode.stackUnderflow.number = 3 ∧
    FaultCode.addressOutOfRange.number = 4 ∧ FaultCode.registerIndexOutOfRange.number = 5 := by decide

/-! ### Witnesses: each statement's hypotheses are met -/

/-- One instruction for each constructor of the RS core. -/
def rsSamples : List Instr :=
  [.nop, .ldi 3 9, .add 0 1 2, .sub 3 2 1, .mul 2 2 2, .jmp 1024, .hlt, .push 9, .pop 3, .call, .ret, .unknown 11]

/-- Those of them that have operand cells. -/
def operandSamples : List Instr := [.ldi 3 9, .add 0 1 2, .sub 3 2 1, .mul 2 2 2, .jmp 1024, .push 9, .pop 3]

/-- One instruction for each constructor of the LS core. -/
def lsSamples : List Instr := [.sentinel, .addi 31 0 0xFFFF, .j 0x3FFFFFF, .unrecognised 1]

theorem test_witness_decode_of_encode : ∀ i ∈ rsSamples ++ lsSamples, i.wellFormed = true := by decide

theorem test_witness_encode_of_decode : decode .rs [1, 2, 77, 6] = .ok (.ldi 2 77, [6]) ∧
    decode .ls [0x0C000004, 1] = .ok (.j 4, [1]) := by decide

theorem test_witness_opcode_fixes_length : decode .rs (2 :: [0, 1, 2]) = .ok (.add 0 1 2, []) ∧
    decode .rs (2 :: [9, 9, 9, 9]) = .ok (.add 9 9 9, [9]) := by decide

theorem test_witness_ls_fields : (0x20410003 : Word) ≠ 0 ∧ (0x20410003 : Word).extractLsb' 26 6 = 0b001000 ∧
    (0x0C000004 : Word).extractLsb' 26 6 = 0b000011 ∧ (1 : Word).extractLsb' 26 6 ≠ 0b001000 ∧
    (1 : Word).extractLsb' 26 6 ≠ 0b000011 := by decide

theorem test_witness_placed : decodeTableWord 96 (1 + 2 * 2 ^ 32 + 77 * 2 ^ 64) = some (.ldi 2 77) := by decide

theorem test_witness_step_runs : (rsAt 0 [6]).sel = .rs ∧ (rsAt 0 [6]).rs.running = true ∧
    decode .rs (rsAt 0 [6]).rs.fetchCells = .ok (.hlt, [0, 0, 0]) ∧ (lsAt 16380 1).sel = .ls ∧
    (lsAt 16380 1).ls.running = true ∧ (lsAt 16380 1).ls.pc.toNat < Config.lsEnd := by decide

/-- `RunsWhenFetched`, for every RS constructor, with the instruction in the last cells of memory. -/
theorem test_witness_runs_when_fetched : ∀ i ∈ rsSamples,
    (rsAt (1024 - (encode i).length) (encode i)).sel = .rs ∧
    (rsAt (1024 - (encode i).length) (encode i)).rs.running = true ∧
    (rsAt (1024 - (encode i).length) (encode i)).rs.pc.toNat + (encode i).length ≤ Config.rsCap ∧
    (rsAt (1024 - (encode i).length) (encode i)).rs.mem.holds
      (rsAt (1024 - (encode i).length) (encode i)).rs.pc.toNat (encode i) = true := by decide

/-- `LsRunsWhenFetched`, for every LS constructor, with the instruction in the last word of memory. -/
theorem test_witness_ls_runs_when_fetched : ∀ i ∈ lsSamples,
    (lsAt 16380 ((encode i).headD 0)).sel = .ls ∧ (lsAt 16380 ((encode i).headD 0)).ls.running = true ∧
    (lsAt 16380 ((encode i).headD 0)).ls.pc.toNat < 16384 ∧
    encode i = [(lsAt 16380 ((encode i).headD 0)).ls.mem.read
      ((lsAt 16380 ((encode i).headD 0)).ls.pc.toNat / 4)] := by decide

/-- `OperandFetchFaults`, for every RS constructor with operands, with the opcode in the last cell; with all but the last
operand in memory for the longest. -/
theorem test_witness_operand_fetch_faults : (∀ i ∈ operandSamples,
    (rsAt 1023 ((encode i).take 1)).sel = .rs ∧ (rsAt 1023 ((encode i).take 1)).rs.running = true ∧
    (rsAt 1023 ((encode i).take 1)).rs.pc.toNat < Config.rsCap ∧
    Config.rsCap < (rsAt 1023 ((encode i).take 1)).rs.pc.toNat + (encode i).length ∧
    (encode i).head? = some ((rsAt 1023 ((encode i).take 1)).rs.mem.read
      (rsAt 1023 ((encode i).take 1)).rs.pc.toNat)) ∧
    (encode (.add 0 1 2)).head? = some ((rsAt 1021 [2, 0, 1]).rs.mem.read 1021) := by decide

/-- `OpcodeFetchFaults`, at both ends of its range. -/
theorem test_witness_opcode_fetch_faults : (rsAt 1024 []).sel = .rs ∧ (rsAt 1024 []).rs.running = true ∧
    Config.rsCap ≤ (rsAt 1024 []).rs.pc.toNat ∧ Config.rsCap ≤ (rsAt 0xFFFFFFFF []).rs.pc.toNat := by decide

theorem test_witness_stopped : State.constructed.isRunning = false ∧
    ({ State.constructed with sel := .ls } : State).isRunning = false := by decide

theorem test_witness_address_faults : (rsAt 0 []).rs.sp.toNat ≤ 1024 ∧
    exec (.push 9) (rsAt 0 []) = .next { rsAt 0 [] with rs := ((rsAt 0 []).rs.advance 2).push 0 9 } ∧
    (rsAt 0 []).rs.faultCode ≠ .addressOutOfRange := ⟨by decide, rfl, by decide⟩

theorem test_witness_reference_steps : (rsSp 0 0 [7, 99]).sel = .rs ∧ (rsSp 0 0 [7, 99]).rs.sp.toNat ≤ 1024 ∧
    (rsAt 0 [8, 2]).rs.sp.toNat ≤ 1024 ∧ (lsAt 0 1).sel = .ls := by decide

theorem test_witness_no_interaction : (rsAt 0 [6]).sel = .rs ∧ ({ lsAt 8 1 with sel := .rs, rs := (rsAt 0 [6]).rs } : State).sel = .rs ∧
    (rsAt 0 [6]).rs = ({ lsAt 8 1 with sel := .rs, rs := (rsAt 0 [6]).rs } : State).rs ∧
    (lsAt 0 1).sel = .ls ∧ (lsAt 0 1).ls = ({ rsAt 0 [6] with sel := .ls, ls := (lsAt 0 1).ls } : State).ls := by decide

theorem test_witness_new_fault : (rsAt 3 [11]).rs.faultCode = .none ∧
    step (rsAt 3 [11]) = .next (rsAt 3 [11]).stepped ∧ (rsAt 3 [11]).stepped.rs.faultCode ≠ .none :=
  ⟨rfl, rfl, by decide⟩

/-- R95: the first words outside the range at either side. -/
theorem test_witness_bad_register : isRegWord 4 = false ∧ isRegWord 0xFFFFFFFF = false ∧ isRegWord 0x80000000 = false ∧
    isRegWord 0 = true ∧ isRegWord 3 = true := by decide

/-- R124: the first bad word in each of the three places. -/
theorem test_witness_first_bad : firstBadWord [5, 7, 9] = some 5 ∧ firstBadWord [0, 7, 9] = some 7 ∧
    firstBadWord [0, 3, 4] = some 4 := by decide

/-- R153: the first address past memory, and the jump in the last two cells. -/
theorem test_witness_jump_out : (rsAt 1022 [5, 1024]).sel = .rs ∧ (rsAt 1022 [5, 1024]).rs.running = true ∧
    (rsAt 1022 [5, 1024]).rs.pc.toNat + 2 ≤ 1024 ∧
    (rsAt 1022 [5, 1024]).rs.mem.holds (rsAt 1022 [5, 1024]).rs.pc.toNat [5, 1024] = true ∧
    1024 ≤ (1024 : Word).toNat := by decide

/-- R160: an empty stack, one with one cell of room, a full one. -/
theorem test_witness_push : (1 ≤ (rsSp 1024 0 []).rs.sp.toNat ∧ (rsSp 1024 0 []).rs.sp.toNat ≤ 1024) ∧
    (1 ≤ (rsSp 1 0 []).rs.sp.toNat ∧ (rsSp 1 0 []).rs.sp.toNat ≤ 1024) ∧ (rsSp 0 0 []).rs.sp = 0 := by decide

/-- R161: a full stack, one with one cell, an empty one. -/
theorem test_witness_pop : (rsSp 0 0 []).rs.sp.toNat < 1024 ∧ (rsSp 1023 0 []).rs.sp.toNat < 1024 ∧
    1024 ≤ (rsSp 1024 0 []).rs.sp.toNat := by decide

/-- R172: the four ends of the two ranges. -/
theorem test_witness_other_opcodes : 11 ≤ (11 : Word).toInt ∧ 11 ≤ (0x7FFFFFFF : Word).toInt ∧
    (0xFFFFFFFF : Word).toInt < 0 ∧ (0x80000000 : Word).toInt < 0 := by decide

/-- R73: the write on the opcode cell, and on the operand cell in the last cell of memory. -/
theorem test_witness_push_onto_itself : (rsSp 1 0 [7, 99]).sel = .rs ∧ (rsSp 1 0 [7, 99]).rs.running = true ∧
    (rsSp 1 0 [7, 99]).rs.mem.read (rsSp 1 0 [7, 99]).rs.pc.toNat = 7 ∧ 1 ≤ (rsSp 1 0 [7, 99]).rs.sp.toNat ∧
    ((rsSp 1 0 [7, 99]).rs.sp - 1).toNat = (rsSp 1 0 [7, 99]).rs.pc.toNat ∧
    (rsSp 1024 1022 [7, 99]).rs.pc.toNat + 2 ≤ 1024 ∧
    ((rsSp 1024 1022 [7, 99]).rs.sp - 1).toNat = (rsSp 1024 1022 [7, 99]).rs.pc.toNat + 1 := by decide

theorem test_witness_exec_answers : (∀ i ∈ rsSamples, i.core = .rs) ∧
    exec (.jmp 1024) (rsAt 0 []) = .next { rsAt 0 [] with rs := { (rsAt 0 []).rs with pc := 1024 } } ∧
    exec .hlt (rsAt 0 []) = .next { rsAt 0 [] with rs := ((rsAt 0 []).rs.advance 1).halt } ∧
    (rsAt 0 []).rs.running = true ∧ (rsAt 0 []).rs.faultCode = .none := ⟨by decide, rfl, rfl, rfl, rfl⟩

theorem test_witness_matrix : writesRegister .nop = false ∧ usesStack (.add 0 0 0) = false ∧
    (∀ v, Instr.pop 0 ≠ .push v) ∧ (Instr.j 0).core = .ls ∧ (Instr.pop 0).core = .rs :=
  ⟨rfl, rfl, nofun, rfl, rfl⟩

theorem test_witness_unrecognised : (0xFFFFFFFF : Word) ≠ 0 ∧ (0xFFFFFFFF : Word).extractLsb' 26 6 ≠ 0b001000 ∧
    (0xFFFFFFFF : Word).extractLsb' 26 6 ≠ 0b000011 := by decide

theorem test_witness_jump_in_memory : (lsAt 16380 0x0C000004).ls.pc.toNat < 16384 := by decide

/-- R176: both ends of the range. -/
theorem test_witness_ls_past_end : (lsAt 16384 0).sel = .ls ∧ (lsAt 16384 0).ls.running = true ∧
    16384 ≤ (lsAt 16384 0).ls.pc.toNat ∧ 16384 ≤ (lsAt 0xFFFFFFFC 0).ls.pc.toNat := by decide

/-- R66: the last misaligned `pc` in memory. -/
theorem test_witness_misaligned : (lsAt 16383 1).sel = .ls ∧ (lsAt 16383 1).ls.running = true ∧
    (lsAt 16383 1).ls.pc.toNat < 16384 ∧ step (lsAt 16383 1) = .next (lsAt 16383 1).stepped ∧
    decodeLs ((lsAt 16383 1).ls.mem.read ((lsAt 16383 1).ls.pc.toNat / 4)) = .unrecognised 1 :=
  ⟨rfl, rfl, by decide, rfl, by decide⟩

/-- The invariant, with a full stack and cells in memory. -/
theorem test_witness_inv : (rsSp 0 0 [7, 99]).Inv :=
  ⟨⟨by decide, by decide, by decide, by decide, by decide⟩, ⟨by decide, by decide, by decide⟩⟩

theorem test_witness_session_inv : ({ core := rsSp 0 0 [7, 99], inRun := true } : Session).core.Inv := test_witness_inv

theorem test_witness_no_start : step State.constructed = .next State.constructed ∧
    State.constructed.rs.running = false ∧ State.constructed.ls.running = false := ⟨rfl, rfl, rfl⟩

/-- A recorded fault in a state with the invariant, the step of V42, from which the RS core and the LS core are stepped, and a
transaction that is neither `reset` nor `start`. -/
theorem test_witness_sticky : (rsSp 0 0 [7, 99]).stepped.Inv ∧ (rsSp 0 0 [7, 99]).stepped.rs.faultCode ≠ .none ∧
    step (rsSp 0 0 [7, 99]).stepped = .next (rsSp 0 0 [7, 99]).stepped ∧
    step { (rsSp 0 0 [7, 99]).stepped with sel := .ls } =
      .next { (rsSp 0 0 [7, 99]).stepped with sel := .ls, ls := (rsSp 0 0 [7, 99]).ls.advance.halt } ∧
    Transaction.step ≠ .reset ∧ Transaction.step ≠ .start :=
  ⟨⟨⟨by decide, by decide, by decide, by decide, by decide⟩, ⟨by decide, by decide, by decide⟩⟩, by decide, rfl, rfl,
    by decide, by decide⟩

/-- R237: a run's last step, by HLT, by a fault, and on the LS core. -/
theorem test_witness_run_ends : (rsAt 1023 [6]).Inv ∧ (rsAt 1023 [6]).isRunning = true ∧
    (rsAt 1023 [6]).stepped.isRunning = false ∧ (rsAt 1024 []).stepped.isRunning = false ∧
    (rsAt 1024 []).stepped.faulted = true ∧ (lsAt 16380 0).isRunning = true ∧
    (lsAt 16380 0).stepped.isRunning = false :=
  ⟨⟨⟨by decide, by decide, by decide, by decide, by decide⟩, ⟨by decide, by decide, by decide⟩⟩, by decide⟩

theorem test_witness_selected : (rsAt 0 []).sel = .rs ∧ (lsAt 0 0).sel = .ls := by decide

/-- R79: the last cell and the first address past it, in both cores. -/
theorem test_witness_load_word : 1023 < (rsAt 0 []).capacity ∧ 4095 < (lsAt 0 0).capacity ∧
    (Session.construct .rs).core.capacity ≤ 1024 ∧ (Session.construct .ls).core.capacity ≤ 4096 ∧
    (Session.construct .rs).inRun = false := by decide

/-- R81: a run of one step that leaves the core running, one that ends it, and the first load in `Idle`. -/
theorem test_witness_loads_run :
    (({ core := rsAt 0 [], inRun := false } : Session).act (.run 1)).1.core.isRunning = true ∧
    (({ core := rsAt 0 [6], inRun := false } : Session).act (.run 1)).1.core.isRunning = false ∧
    1023 < (({ core := rsAt 0 [6], inRun := false } : Session).act (.run 1)).1.core.capacity ∧
    1023 < (Session.construct .rs).core.capacity ∧
    4094 + ([5, 6] : List Word).length ≤ (Session.construct .ls).core.capacity := by decide

theorem test_witness_loads : (({ core := rsAt 0 [], inRun := false } : Session).act .step).1.core.isRunning = true ∧
    (({ core := rsAt 0 [6], inRun := true } : Session).act .step).1.core.isRunning = false ∧
    1023 < (({ core := rsAt 0 [6], inRun := true } : Session).act .step).1.core.capacity ∧
    1022 + ([5, 6] : List Word).length ≤ (({ core := rsAt 0 [6], inRun := true } : Session).act .step).1.core.capacity ∧
    1023 < (({ core := rsAt 0 [6], inRun := true } : Session).act .reset).1.core.capacity ∧
    1023 < (({ core := rsAt 0 [6], inRun := true } : Session).act .start).1.core.capacity := by decide

/-- R80: an image that ends at the last cell, and one that goes past it. -/
theorem test_witness_image : 1022 + ([5, 6] : List Word).length ≤ (Session.construct .rs).core.capacity ∧
    (Session.construct .rs).core.capacity < 1023 + ([5, 6] : List Word).length ∧
    (Session.construct .rs).core.sel = .rs ∧ (Session.construct .ls).core.sel = .ls ∧
    (Session.construct .rs).inRun = false ∧ (loadImage 1022 [5, 6] (Session.construct .rs).core).2 = none ∧
    (loadImage 1023 [5, 6] (Session.construct .rs).core).2 = some (.hostAddressOutOfRange 1024) := by decide

theorem test_witness_run : ((rsAt 0 [6]).run 1).isRunning = false := by decide

theorem test_witness_observer :
    ((rsAt 0 [6]).observedRun 2 5)[0]? = some (((rsAt 0 [6]).run 1).snapshot 2) ∧
    0 < 5 ∧ ((rsAt 0 [6]).run 0).isRunning = true ∧ ((lsAt 0 0).run 1).isRunning = false := by decide

/-- R164: as many pushes as there is room for, and as many pops. -/
theorem test_witness_pops : ([1, 2] : List Word).length ≤ (rsSp 2 0 []).rs.sp.toNat ∧
    (rsSp 2 0 []).rs.sp.toNat ≤ 1024 ∧ ([0, 1] : List (Fin 4)).length ≤ ([1, 2] : List Word).length := by decide

theorem test_witness_same_but_regs : (rsRegs #v[1, 2, 3, 4] [2, 0, 1, 2]).SameButRegs (rsAt 0 [2, 0, 1, 2]) :=
  ⟨by decide, by unfold RsState.SameButRegs; decide, by unfold LsState.SameButRegs; decide⟩

end Sys2Proof.Tests
end

/-! # Proofs: the scope (00_scope)

Noninterference of the two cores (R1, R8, R216): two states that hold the same selected core step to the same selected
core. The frame is the case of a state and itself. -/

namespace Sys2Proof.Machine

/-! ### One equation per end of a step -/

/-- The gate (R120, R175). -/
theorem step_of_not_running (s : State) (hrun : s.isRunning = false) : step s = .next s := by
  cases hsel : s.sel with
  | rs =>
    have hrs : s.rs.running = false := by simpa [State.isRunning, hsel] using hrun
    simp [step, fetch, fetchRs, hsel, hrs]
  | ls =>
    have hls : s.ls.running = false := by simpa [State.isRunning, hsel] using hrun
    simp [step, fetch, fetchLs, hsel, hls]

/-- An RS fetch with a cell missing (R121, R123). -/
theorem step_rs_of_decode_error (s : State) (e : DecodeError) (hsel : s.sel = .rs) (hrun : s.rs.running = true)
    (hd : decode .rs s.rs.fetchCells = .error e) :
    step s = .next { s with rs := s.rs.fetchFault s.rs.fetchCells.length } := by
  simp [step, fetch, fetchRs, hsel, hrun, hd]

/-- An RS instruction fetched whole (R122, R127). -/
theorem step_rs_of_decode_ok (s : State) (i : Instr) (rest : List Word) (hsel : s.sel = .rs) (hrun : s.rs.running = true)
    (hd : decode .rs s.rs.fetchCells = .ok (i, rest)) : step s = exec i s := by
  simp [step, fetch, fetchRs, hsel, hrun, hd]

/-- An LS `pc` past the end of memory (R176). -/
theorem step_ls_past_end (s : State) (hsel : s.sel = .ls) (hrun : s.ls.running = true)
    (hpc : Config.lsEnd ≤ s.ls.pc.toNat) : step s = .next { s with ls := s.ls.halt } := by
  simp only [step, fetch, fetchLs, hsel, hrun, hpc, if_true]

/-- An LS word fetched from memory (R177, R183). -/
theorem step_ls_in_memory (s : State) (hsel : s.sel = .ls) (hrun : s.ls.running = true)
    (hpc : s.ls.pc.toNat < Config.lsEnd) : step s = exec (decodeLs s.ls.fetchWord) s := by
  have hin : ¬ Config.lsEnd ≤ s.ls.pc.toNat := Nat.not_le.mpr hpc
  simp only [step, fetch, fetchLs, hsel, hrun, hin, if_true, if_false]

/-! ### States that agree on the selected core -/

/-- An RS instruction reads the RS core only. -/
theorem exec_rs_agree (i : Instr) (hc : i.core = .rs) (s s' : State) (h : s.rs = s'.rs) :
    ∃ r : RsState, exec i s = .next { s with rs := r } ∧ exec i s' = .next { s' with rs := r } := by
  obtain ⟨_, _, _⟩ := s
  obtain ⟨_, _, _⟩ := s'
  cases h
  cases i
  case sentinel | addi | j | unrecognised => cases hc
  all_goals exact ⟨_, rfl, rfl⟩

/-- An LS instruction reads the LS core only. -/
theorem exec_ls_agree (i : Instr) (hc : i.core = .ls) (s s' : State) (h : s.ls = s'.ls) :
    ∃ l : LsState, exec i s = .next { s with ls := l } ∧ exec i s' = .next { s' with ls := l } := by
  obtain ⟨_, _, _⟩ := s
  obtain ⟨_, _, _⟩ := s'
  cases h
  cases i
  case sentinel | addi | j | unrecognised => exact ⟨_, rfl, rfl⟩
  all_goals cases hc

/-- A step of the RS core reads the RS core only, and writes nothing else. -/
theorem step_rs_agree (s s' : State) (hs : s.sel = .rs) (hs' : s'.sel = .rs) (h : s.rs = s'.rs) :
    ∃ r : RsState, step s = .next { s with rs := r } ∧ step s' = .next { s' with rs := r } := by
  cases hrun : s.rs.running with
  | false =>
    have hstop : s.isRunning = false := by simpa [State.isRunning, hs] using hrun
    have hstop' : s'.isRunning = false := by simpa [State.isRunning, hs', ← h] using hrun
    exact ⟨s.rs, step_of_not_running s hstop, by rw [step_of_not_running s' hstop', h]⟩
  | true =>
    cases hd : decode .rs s.rs.fetchCells with
    | error e =>
      exact ⟨_, step_rs_of_decode_error s e hs hrun hd,
        h ▸ step_rs_of_decode_error s' e hs' (h ▸ hrun) (h ▸ hd)⟩
    | ok p =>
      rw [step_rs_of_decode_ok s p.1 p.2 hs hrun hd, step_rs_of_decode_ok s' p.1 p.2 hs' (h ▸ hrun) (h ▸ hd)]
      exact exec_rs_agree p.1 (decodeRs_core _ p.2 _ hd) s s' h

/-- A step of the LS core reads the LS core only, and writes nothing else. -/
theorem step_ls_agree (s s' : State) (hs : s.sel = .ls) (hs' : s'.sel = .ls) (h : s.ls = s'.ls) :
    ∃ l : LsState, step s = .next { s with ls := l } ∧ step s' = .next { s' with ls := l } := by
  cases hrun : s.ls.running with
  | false =>
    have hstop : s.isRunning = false := by simpa [State.isRunning, hs] using hrun
    have hstop' : s'.isRunning = false := by simpa [State.isRunning, hs', ← h] using hrun
    exact ⟨s.ls, step_of_not_running s hstop, by rw [step_of_not_running s' hstop', h]⟩
  | true =>
    rcases Nat.lt_or_ge s.ls.pc.toNat Config.lsEnd with hin | hout
    · rw [step_ls_in_memory s hs hrun hin, step_ls_in_memory s' hs' (h ▸ hrun) (h ▸ hin), ← h]
      exact exec_ls_agree _ (decodeLs_core _) s s' h
    · exact ⟨_, step_ls_past_end s hs hrun hout, h ▸ step_ls_past_end s' hs' (h ▸ hrun) (h ▸ hout)⟩

/-! ### The statement -/

/-- The frame of a step (R1, R8): the selection and the core that is not selected stay. -/
theorem step_outside_selected (s t : State) (h : step s = .next t) :
    t.sel = s.sel ∧ (s.sel = .rs → t.ls = s.ls) ∧ (s.sel = .ls → t.rs = s.rs) := by
  cases hsel : s.sel with
  | rs =>
    obtain ⟨r, hr, -⟩ := step_rs_agree s s hsel hsel rfl
    cases hr.symm.trans h
    simp [hsel]
  | ls =>
    obtain ⟨l, hl, -⟩ := step_ls_agree s s hsel hsel rfl
    cases hl.symm.trans h
    simp [hsel]

/-- Settles O14, from the steps of two states that agree on the selected core. -/
theorem instancesNeverInteract : Obligations.InstancesNeverInteract := by
  refine ⟨step_outside_selected, fun s s' t t' ht ht' => ⟨fun hs hs' h => ?_, fun hs hs' h => ?_⟩⟩
  · obtain ⟨r, hr, hr'⟩ := step_rs_agree s s' hs hs' h
    cases hr.symm.trans ht
    cases hr'.symm.trans ht'
    rfl
  · obtain ⟨l, hl, hl'⟩ := step_ls_agree s s' hs hs' h
    cases hl.symm.trans ht
    cases hl'.symm.trans ht'
    rfl

end Sys2Proof.Machine

/-! # Proofs: the state (10_state)

What a step can make of each part of a core's state, said once: the control state (running flag, run state, fault record) by
`RsState.ControlAfter`, the stack pointer and memory by `exec_rs_stack_cases`. The invariants, the frame of R43 and the
stickiness of faults follow from these; the host's transactions follow by closure under loads and steps. -/

namespace Sys2Proof.Machine

/-! ### The control state after a step -/

/-- What one step of a running RS core makes of its control state: as before, a normal halt with the record kept (R151), or a
fault of the instruction whose opcode cell is at `opcAddr` (R126). -/
inductive RsState.ControlAfter (opcAddr : Word) (s t : RsState) : Prop where
  | kept (same : s.SameControl t)
  | halted (running : t.running = false) (runState : t.runState = .halted) (record : t.faultRecord = s.faultRecord)
  | faulted (code : FaultCode) (info : Word) (isFault : code ≠ .none) (commit : t.Faulted code opcAddr info)

/-- A fault commit (R126) as the end of a step, whatever the step did before it. -/
theorem RsState.controlAfter_raise (o i : Word) (c : FaultCode) (s u : RsState) (hc : c ≠ .none := by decide) :
    s.ControlAfter o (u.raise o c i) :=
  .faulted c i hc ⟨rfl, rfl, rfl, rfl, rfl⟩

theorem exec_rs_controlAfter (i : Instr) (s t : State) (hc : i.core = .rs) (h : exec i s = .next t) :
    s.rs.ControlAfter s.rs.pc t.rs := by
  rcases exec_rs_cases i s t hc h with ⟨d, v, -, -, ht⟩ | ⟨w, -, ht⟩ | ⟨v, -, ht⟩ | ⟨d, -, ht⟩ | ⟨w, -, ht⟩ | ⟨-, ht⟩ |
    ⟨-, ht⟩ | ⟨w, -, -, -, ht⟩ <;> rw [ht]
  · exact .kept ⟨rfl, rfl, rfl, rfl, rfl⟩
  · exact RsState.controlAfter_raise _ _ _ _ _
  · rcases RsState.push_cases s.rs.pc v (s.rs.advance 2) with ⟨-, hp⟩ | ⟨-, hp⟩ | ⟨-, hp⟩ <;> rw [hp]
    · exact RsState.controlAfter_raise _ _ _ _ _
    · exact .kept ⟨rfl, rfl, rfl, rfl, rfl⟩
    · exact RsState.controlAfter_raise _ _ _ _ _
  · rcases RsState.pop_cases s.rs.pc (s.rs.advance 2) with ⟨-, hp⟩ | ⟨-, hp⟩ <;> rw [hp]
    · exact .kept ⟨rfl, rfl, rfl, rfl, rfl⟩
    · exact .faulted .stackUnderflow opcPop nofun ⟨rfl, rfl, rfl, rfl, rfl⟩
  · exact .kept ⟨rfl, rfl, rfl, rfl, rfl⟩
  · exact .halted rfl rfl rfl
  · exact .kept ⟨rfl, rfl, rfl, rfl, rfl⟩
  · exact RsState.controlAfter_raise _ _ _ _ _

/-- The two ends of a step of a running RS core: the fetch's fault, or an instruction. -/
theorem step_rs_running_cases (s t : State) (hsel : s.sel = .rs) (hrun : s.rs.running = true) (h : step s = .next t) :
    t.rs = s.rs.fetchFault s.rs.fetchCells.length ∨ ∃ i : Instr, i.core = .rs ∧ exec i s = .next t := by
  cases hd : decode .rs s.rs.fetchCells with
  | error e =>
    cases (step_rs_of_decode_error s e hsel hrun hd).symm.trans h
    exact .inl rfl
  | ok p => exact .inr ⟨p.1, decodeRs_core _ p.2 _ hd, (step_rs_of_decode_ok s p.1 p.2 hsel hrun hd).symm.trans h⟩

/-- The two ends of a step of a running LS core: `pc` past the end, or an instruction. -/
theorem step_ls_running_cases (s t : State) (hsel : s.sel = .ls) (hrun : s.ls.running = true) (h : step s = .next t) :
    t.ls = s.ls.halt ∨ ∃ i : Instr, i.core = .ls ∧ exec i s = .next t := by
  rcases Nat.lt_or_ge s.ls.pc.toNat Config.lsEnd with hin | hout
  · exact .inr ⟨_, decodeLs_core _, (step_ls_in_memory s hsel hrun hin).symm.trans h⟩
  · cases (step_ls_past_end s hsel hrun hout).symm.trans h
    exact .inl rfl

theorem step_rs_controlAfter (s t : State) (hsel : s.sel = .rs) (hrun : s.rs.running = true) (h : step s = .next t) :
    s.rs.ControlAfter s.rs.pc t.rs := by
  rcases step_rs_running_cases s t hsel hrun h with ht | ⟨i, hc, hi⟩
  · rw [ht]
    exact RsState.controlAfter_raise _ _ _ _ _
  · exact exec_rs_controlAfter i s t hc hi

/-- A stopped RS core stays as it is, whichever core is stepped (R120, R1). -/
theorem step_rs_of_rs_stopped (s t : State) (hrun : s.rs.running = false) (h : step s = .next t) : t.rs = s.rs := by
  cases hsel : s.sel with
  | rs =>
    cases (step_of_not_running s (by simpa [State.isRunning, hsel] using hrun)).symm.trans h
    rfl
  | ls => exact (step_outside_selected s t h).2.2 hsel

/-- A stopped LS core stays as it is, whichever core is stepped (R175, R1). -/
theorem step_ls_of_ls_stopped (s t : State) (hrun : s.ls.running = false) (h : step s = .next t) : t.ls = s.ls := by
  cases hsel : s.sel with
  | rs => exact (step_outside_selected s t h).2.1 hsel
  | ls =>
    cases (step_of_not_running s (by simpa [State.isRunning, hsel] using hrun)).symm.trans h
    rfl

/-! ### Registers, stack pointer and memory after an instruction -/

@[simp] theorem RsState.push_x (o v : Word) (s : RsState) : (s.push o v).x = s.x := by
  rcases RsState.push_cases o v s with ⟨-, hp⟩ | ⟨-, hp⟩ | ⟨-, hp⟩ <;> rw [hp] <;> rfl

/-- An RS instruction without a destination writes no register (R43). -/
theorem exec_rs_x (i : Instr) (s t : State) (hc : i.core = .rs) (hw : writesRegister i = false) (h : exec i s = .next t) :
    t.rs.x = s.rs.x := by
  rcases exec_rs_cases i s t hc h with ⟨_, _, hw', -⟩ | ⟨_, hw', -⟩ | ⟨v, -, ht⟩ | ⟨d, rfl, -⟩ | ⟨w, -, ht⟩ | ⟨-, ht⟩ |
    ⟨-, ht⟩ | ⟨w, -, -, -, ht⟩
  case inl | inr.inl => cases hw.symm.trans hw'
  case inr.inr.inr.inl => cases hw
  all_goals simp [ht]

/-- Everything an RS instruction can make of the stack pointer and memory (R43, R160, R161): a push with room, a push from an
`sp` beyond the capacity (log entry 7), a pop, or nothing. -/
theorem exec_rs_stack_cases (i : Instr) (s t : State) (hc : i.core = .rs) (h : exec i s = .next t) :
    (t.rs.sp = s.rs.sp ∧ t.rs.mem = s.rs.mem) ∨
    (∃ v, i = .push v ∧ (s.rs.sp - 1).toNat < 1024 ∧ t.rs.sp = s.rs.sp - 1 ∧
      t.rs.mem = s.rs.mem.write (s.rs.sp - 1).toNat v) ∨
    (∃ v, i = .push v ∧ 1024 < s.rs.sp.toNat ∧ t.rs.sp = s.rs.sp - 1 ∧ t.rs.mem = s.rs.mem) ∨
    (∃ w, i = .pop w ∧ s.rs.sp.toNat < 1024 ∧ t.rs.sp = s.rs.sp + 1 ∧ t.rs.mem = s.rs.mem) := by
  rcases exec_rs_cases i s t hc h with ⟨d, v, -, -, ht⟩ | ⟨w, -, ht⟩ | ⟨v, hi, ht⟩ | ⟨d, hi, ht⟩ | ⟨w, -, ht⟩ | ⟨-, ht⟩ |
    ⟨-, ht⟩ | ⟨w, -, -, -, ht⟩ <;> rw [ht]
  case inr.inr.inl =>
    rcases RsState.push_cases s.rs.pc v (s.rs.advance 2) with ⟨-, hp⟩ | ⟨hlt, hp⟩ | ⟨hgt, hp⟩ <;> rw [hp]
    · exact .inl ⟨rfl, rfl⟩
    · exact .inr (.inl ⟨v, hi, hlt, rfl, rfl⟩)
    · exact .inr (.inr (.inl ⟨v, hi, hgt, rfl, rfl⟩))
  case inr.inr.inr.inl =>
    rcases RsState.pop_cases s.rs.pc (s.rs.advance 2) with ⟨hlt, hp⟩ | ⟨-, hp⟩ <;> rw [hp]
    · exact .inr (.inr (.inr ⟨regWord d, hi, hlt, rfl, rfl⟩))
    · exact .inl ⟨rfl, rfl⟩
  all_goals exact .inl ⟨rfl, rfl⟩

/-- Only PUSH and POP write `sp` (R24, R43). -/
theorem exec_rs_sp (i : Instr) (s t : State) (hc : i.core = .rs) (hu : usesStack i = false) (h : exec i s = .next t) :
    t.rs.sp = s.rs.sp := by
  rcases exec_rs_stack_cases i s t hc h with ⟨hsp, -⟩ | ⟨_, rfl, -⟩ | ⟨_, rfl, -⟩ | ⟨_, rfl, -⟩
  · exact hsp
  all_goals cases hu

/-- Only PUSH writes RS memory (R21, R43). -/
theorem exec_rs_mem (i : Instr) (s t : State) (hc : i.core = .rs) (hp : ∀ v, i ≠ .push v) (h : exec i s = .next t) :
    t.rs.mem = s.rs.mem := by
  rcases exec_rs_stack_cases i s t hc h with ⟨-, hmem⟩ | ⟨v, hi, -⟩ | ⟨v, hi, -⟩ | ⟨_, -, -, -, hmem⟩
  · exact hmem
  · exact absurd hi (hp v)
  · exact absurd hi (hp v)
  · exact hmem

/-- An LS instruction writes no memory (R31, R43). -/
theorem exec_ls_mem (i : Instr) (s t : State) (hc : i.core = .ls) (h : exec i s = .next t) : t.ls.mem = s.ls.mem := by
  rcases exec_ls_cases i s t hc h with ⟨_, -, ht⟩ | ⟨-, ht⟩ | ⟨_, _, _, -, ht⟩ | ⟨_, -, ht⟩ <;> simp [ht]

/-- Only ADDI writes LS registers (R32, R43). -/
theorem exec_ls_x (i : Instr) (s t : State) (hc : i.core = .ls) (hw : writesRegister i = false) (h : exec i s = .next t) :
    t.ls.x = s.ls.x := by
  rcases exec_ls_cases i s t hc h with ⟨_, -, ht⟩ | ⟨-, ht⟩ | ⟨_, _, _, rfl, -⟩ | ⟨_, -, ht⟩
  case inr.inr.inl => cases hw
  all_goals simp [ht]

/-! ### Every step keeps the invariants -/

/-- The control state's invariants (R26, R27) survive every end of a step of a running core. -/
theorem RsState.Inv.of_controlAfter {o : Word} {s t : RsState} (hs : s.Inv) (hrun : s.running = true)
    (hmem : t.mem.wf Config.rsCap = true) (hsp : t.sp.toNat ≤ Config.rsCap) (h : s.ControlAfter o t) : t.Inv := by
  have hnone : s.faultCode = .none := by
    by_contra hf
    exact absurd (hs.faultStops hf) (by simp [hrun])
  cases h with
  | kept same =>
    obtain ⟨hr, hst, hcode, hpc, hinfo⟩ := same
    exact ⟨hmem, hsp, by rw [hr, hst]; exact hs.runningIff, by rw [hr, hcode]; exact hs.faultStops,
      by rw [hcode, hpc, hinfo]; exact hs.noFaultZero⟩
  | halted hr hst hrec =>
    obtain ⟨hcode, hpc, hinfo⟩ : t.faultCode = s.faultCode ∧ t.faultPc = s.faultPc ∧ t.faultInfo = s.faultInfo := by
      simpa [RsState.faultRecord] using hrec
    exact ⟨hmem, hsp, by simp [hr, hst], fun _ => hr, by rw [hcode, hpc, hinfo]; exact hs.noFaultZero⟩
  | faulted code info isFault commit =>
    exact ⟨hmem, hsp, by simp [commit.running, commit.runState], fun _ => commit.running,
      fun h => absurd (commit.faultCode.symm.trans h) isFault⟩

theorem exec_rs_memWf (i : Instr) (s t : State) (hc : i.core = .rs) (h : exec i s = .next t)
    (hwf : s.rs.mem.wf Config.rsCap = true) : t.rs.mem.wf Config.rsCap = true := by
  rcases exec_rs_stack_cases i s t hc h with ⟨-, hm⟩ | ⟨v, -, hlt, -, hm⟩ | ⟨_, -, -, -, hm⟩ | ⟨_, -, -, -, hm⟩ <;> rw [hm]
  case inr.inl => exact Memory.wf_write _ _ _ v hwf hlt
  all_goals exact hwf

theorem exec_rs_spLe (i : Instr) (s t : State) (hc : i.core = .rs) (h : exec i s = .next t)
    (hle : s.rs.sp.toNat ≤ Config.rsCap) : t.rs.sp.toNat ≤ Config.rsCap := by
  rw [Config.rsCap_eq] at hle ⊢
  rcases exec_rs_stack_cases i s t hc h with ⟨hsp, -⟩ | ⟨_, -, hlt, hsp, -⟩ | ⟨_, -, hgt, -⟩ | ⟨_, -, hlt, hsp, -⟩
  · rwa [hsp]
  · rw [hsp]
    exact hlt.le
  · exact absurd hle (Nat.not_le.mpr hgt)
  · rw [hsp, toNat_succ_of_lt _ hlt]
    exact hlt

theorem exec_rs_keeps_inv (i : Instr) (s t : State) (hc : i.core = .rs) (hrun : s.rs.running = true)
    (h : exec i s = .next t) (hs : s.rs.Inv) : t.rs.Inv :=
  hs.of_controlAfter hrun (exec_rs_memWf i s t hc h hs.memWf) (exec_rs_spLe i s t hc h hs.spLe)
    (exec_rs_controlAfter i s t hc h)

/-- The advance over a word keeps `pc` a multiple of 4 (R33). -/
theorem toNat_add_four_mod_four (p : Word) (h : p.toNat % 4 = 0) : (p + 4).toNat % 4 = 0 := by bv_omega

/-- A jump target is a multiple of 4 (R33, R181). -/
theorem jumpTarget_mod_four (p : Word) (target : BitVec 26) : (jumpTarget p target).toNat % 4 = 0 := by
  have := jumpTarget_offset p target
  omega

theorem LsState.Inv.halt {s : LsState} (hs : s.Inv) : s.halt.Inv :=
  ⟨hs.memWf, by simp, hs.pcAligned⟩

theorem LsState.Inv.advance {s : LsState} (hs : s.Inv) : s.advance.Inv :=
  ⟨hs.memWf, hs.runningIff, toNat_add_four_mod_four s.pc hs.pcAligned⟩

theorem exec_ls_keeps_inv (i : Instr) (s t : State) (hc : i.core = .ls) (h : exec i s = .next t) (hs : s.ls.Inv) :
    t.ls.Inv := by
  rcases exec_ls_cases i s t hc h with ⟨w, -, ht⟩ | ⟨-, ht⟩ | ⟨_, _, _, -, ht⟩ | ⟨_, -, ht⟩ <;> rw [ht]
  · exact ⟨hs.memWf, hs.runningIff, jumpTarget_mod_four _ w⟩
  · exact hs.advance.halt
  · exact ⟨hs.advance.memWf, hs.advance.runningIff, hs.advance.pcAligned⟩
  · exact hs.advance

theorem step_rs_keeps_inv (s t : State) (h : step s = .next t) (hs : s.rs.Inv) : t.rs.Inv := by
  cases hsel : s.sel with
  | ls => rwa [(step_outside_selected s t h).2.2 hsel]
  | rs =>
    cases hrun : s.rs.running with
    | false => rwa [step_rs_of_rs_stopped s t hrun h]
    | true =>
      have hctl := step_rs_controlAfter s t hsel hrun h
      rcases step_rs_running_cases s t hsel hrun h with ht | ⟨i, hc, hi⟩
      · exact hs.of_controlAfter hrun (by rw [ht]; exact hs.memWf) (by rw [ht]; exact hs.spLe) hctl
      · exact exec_rs_keeps_inv i s t hc hrun hi hs

theorem step_ls_keeps_inv (s t : State) (h : step s = .next t) (hs : s.ls.Inv) : t.ls.Inv := by
  cases hsel : s.sel with
  | rs => rwa [(step_outside_selected s t h).2.1 hsel]
  | ls =>
    cases hrun : s.ls.running with
    | false => rwa [step_ls_of_ls_stopped s t hrun h]
    | true =>
      rcases step_ls_running_cases s t hsel hrun h with ht | ⟨i, hc, hi⟩
      · rw [ht]
        exact hs.halt
      · exact exec_ls_keeps_inv i s t hc hi hs

/-- Settles O39, core by core: `sp` and memory by `exec_rs_stack_cases`, the rest by `RsState.ControlAfter`. -/
theorem everyStepKeepsInvariant : Obligations.EveryStepKeepsInvariant :=
  fun s t hs h => ⟨step_rs_keeps_inv s t h hs.rs, step_ls_keeps_inv s t h hs.ls⟩

/-! ### New faults, the write matrix, and stopped cores -/

/-- Settles O15: of the ends of a running core's step only the fault commit can bring a new record. -/
theorem newFaultRecordsOpcodeAddress : Obligations.NewFaultRecordsOpcodeAddress := by
  intro s t hnone h hfault
  have hmoved : t.rs ≠ s.rs := fun heq => hfault (by rw [heq, hnone])
  have hsel : s.sel = .rs := by
    cases hsel : s.sel with
    | rs => rfl
    | ls => exact absurd ((step_outside_selected s t h).2.2 hsel) hmoved
  have hrun : s.rs.running = true := by
    by_contra hstop
    exact hmoved (step_rs_of_rs_stopped s t (by simpa using hstop) h)
  cases step_rs_controlAfter s t hsel hrun h with
  | kept same => exact absurd (same.faultCode.trans hnone) hfault
  | halted _ _ record => exact absurd ((congrArg Prod.fst record).trans hnone) hfault
  | faulted _ _ _ commit => exact ⟨hsel, hrun, commit.faultPc, commit.running, commit.runState⟩

/-- Settles O32, from the frame of each core's instructions. -/
theorem writesFollowTheMatrix : Obligations.WritesFollowTheMatrix := by
  intro i s t h
  cases hc : i.core with
  | rs =>
    obtain ⟨-, hls⟩ := exec_rs_outside i s t hc h
    exact ⟨fun hw => ⟨exec_rs_x i s t hc hw h, by rw [hls]⟩, fun hu => exec_rs_sp i s t hc hu h,
      fun hp => exec_rs_mem i s t hc hp h, by rw [hls], nofun, fun _ => hls⟩
  | ls =>
    obtain ⟨-, hrs⟩ := exec_ls_outside i s t hc h
    exact ⟨fun hw => ⟨by rw [hrs], exec_ls_x i s t hc hw h⟩, fun _ => by rw [hrs], fun _ => by rw [hrs],
      exec_ls_mem i s t hc h, fun _ => hrs, nofun⟩

/-- Settles O42: a stopped core is not changed at all. -/
theorem noStepStartsACore : Obligations.NoStepStartsACore := fun s t h =>
  ⟨fun hr => by rw [step_rs_of_rs_stopped s t hr h, hr], fun hr => by rw [step_ls_of_ls_stopped s t hr h, hr]⟩

/-! ### The host's transactions -/

/-- R209, as far as `State.stepped` needs it: the step always has a next state. -/
theorem step_eq_stepped (s : State) : step s = .next s.stepped := by
  have hnext : ∃ t, step s = .next t := by
    cases hsel : s.sel with
    | rs =>
      obtain ⟨r, hr, -⟩ := step_rs_agree s s hsel hsel rfl
      exact ⟨_, hr⟩
    | ls =>
      obtain ⟨l, hl, -⟩ := step_ls_agree s s hsel hsel rfl
      exact ⟨_, hl⟩
  obtain ⟨t, ht⟩ := hnext
  simp only [State.stepped, ht]

@[simp] theorem State.run_zero (s : State) : s.run 0 = s := rfl

theorem State.run_succ_of_running (n : Nat) (s : State) (h : s.isRunning = true) : s.run (n + 1) = s.stepped.run n :=
  if_pos h

/-- A run of a stopped core takes no step (R129). -/
theorem State.run_of_stopped (n : Nat) (s : State) (h : s.isRunning = false) : s.run n = s := by
  cases n with
  | zero => rfl
  | succ n => exact if_neg (by simp [h])

/-- What every step keeps, a run keeps (R129). -/
theorem State.run_induct {P : State → Prop} (hstep : ∀ s, P s → P s.stepped) (n : Nat) (s : State) (h : P s) :
    P (s.run n) := by
  induction n generalizing s with
  | zero => exact h
  | succ n ih =>
    cases hrun : s.isRunning with
    | false => rwa [State.run_of_stopped _ s hrun]
    | true =>
      rw [State.run_succ_of_running n s hrun]
      exact ih _ (hstep s h)

/-- What every write to a cell in range keeps, a bulk load keeps (R80). -/
theorem loadImage_induct {P : State → Prop} (hpoke : ∀ a v s, a < s.capacity → P s → P (s.poke a v)) (base : Nat)
    (ws : List Word) (s : State) (h : P s) : P (loadImage base ws s).1 := by
  induction ws generalizing base s with
  | nil => exact h
  | cons w ws ih =>
    rcases loadImage_cons_cases base w ws s with ⟨hin, he⟩ | ⟨-, he⟩ <;> rw [he]
    · exact ih _ _ (hpoke base w s hin h)
    · exact h

/-- A transaction keeps what the step and a write to a cell in range keep, and what `reset` and `start` bring about where it is one
of those (R242). -/
theorem Session.act_induct {P : State → Prop} (x : Transaction) (s : Session)
    (hreset : x = .reset → P s.core.hostReset) (hstart : x = .start → P s.core.start)
    (hpoke : ∀ a v t, a < t.capacity → P t → P (t.poke a v)) (hstep : ∀ t, P t → P t.stepped) (h : P s.core) :
    P (s.act x).1.core := by
  cases x with
  | reset => exact hreset rfl
  | start => exact hstart rfl
  | step => exact hstep _ h
  | run n => exact State.run_induct hstep n _ h
  | snapshot n => exact h
  | loadWord a v =>
    cases hrun : s.inRun with
    | true => simpa [Session.act, hrun, Session.loaded] using h
    | false =>
      rcases Nat.lt_or_ge a s.core.capacity with hin | hout
      · simpa [Session.act, hrun, Session.loaded, loadWord_in a v _ hin] using hpoke a v _ hin h
      · simpa [Session.act, hrun, Session.loaded, loadWord_out a v _ hout] using h
  | loadImage base ws =>
    cases hrun : s.inRun with
    | true => simpa [Session.act, hrun] using h
    | false => simpa [Session.act, hrun, Session.loadedImage] using loadImage_induct hpoke base ws _ h

theorem RsState.Inv.hostReset {s : RsState} (hs : s.Inv) : s.hostReset.Inv :=
  ⟨hs.memWf, by rw [RsState.hostReset_sp]; decide, by simp, by simp, by simp⟩

theorem LsState.Inv.hostReset {s : LsState} (hs : s.Inv) : s.hostReset.Inv :=
  ⟨hs.memWf, by simp, by rw [LsState.hostReset_pc]; decide⟩

theorem RsState.Inv.start {s : RsState} (hs : s.Inv) : s.start.Inv :=
  ⟨hs.memWf, hs.spLe, by simp, by simp, by simp⟩

theorem LsState.Inv.start {s : LsState} (hs : s.Inv) : s.start.Inv :=
  ⟨hs.memWf, by simp, by rw [LsState.start_pc]; decide⟩

theorem State.Inv.hostReset {s : State} (hs : s.Inv) : s.hostReset.Inv := by
  unfold State.hostReset
  cases s.sel with
  | rs => exact ⟨hs.rs.hostReset, hs.ls⟩
  | ls => exact ⟨hs.rs, hs.ls.hostReset⟩

theorem State.Inv.start {s : State} (hs : s.Inv) : s.start.Inv := by
  unfold State.start
  cases s.sel with
  | rs => exact ⟨hs.rs.start, hs.ls⟩
  | ls => exact ⟨hs.rs, hs.ls.start⟩

theorem State.Inv.poke {s : State} (hs : s.Inv) (a : Nat) (v : Word) (ha : a < s.capacity) : (s.poke a v).Inv := by
  cases hsel : s.sel with
  | rs =>
    rw [State.poke_rs a v s hsel]
    have hcap : a < Config.rsCap := by simpa [State.capacity, hsel] using ha
    obtain ⟨hmem, hsp, hrun, hstop, hzero⟩ := hs.rs
    exact ⟨⟨Memory.wf_write _ a _ v hmem hcap, hsp, hrun, hstop, hzero⟩, hs.ls⟩
  | ls =>
    rw [State.poke_ls a v s hsel]
    have hcap : a < Config.lsCap := by simpa [State.capacity, hsel] using ha
    obtain ⟨hmem, hrun, hpc⟩ := hs.ls
    exact ⟨hs.rs, ⟨Memory.wf_write _ a _ v hmem hcap, hrun, hpc⟩⟩

theorem State.Inv.stepped {s : State} (hs : s.Inv) : s.stepped.Inv :=
  everyStepKeepsInvariant s _ hs (step_eq_stepped s)

/-- Settles O41, by closure under `reset`, `start`, a load in range, and the step. -/
theorem hostTransactionsKeepInvariant : Obligations.HostTransactionsKeepInvariant := fun x s hs =>
  Session.act_induct x s (fun _ => hs.hostReset) (fun _ => hs.start) (fun a v _ ha ht => ht.poke a v ha)
    (fun _ ht => ht.stepped) hs

/-! ### A recorded fault stays -/

theorem State.stepped_rs_of_rs_stopped (s : State) (hrun : s.rs.running = false) : s.stepped.rs = s.rs :=
  step_rs_of_rs_stopped s _ hrun (step_eq_stepped s)

theorem State.iterate_stepped_rs_of_rs_stopped (n : Nat) (s : State) (hrun : s.rs.running = false) :
    (State.stepped^[n] s).rs = s.rs := by
  induction n with
  | zero => rfl
  | succ n ih =>
    rw [Function.iterate_succ_apply', State.stepped_rs_of_rs_stopped _ (by rw [ih, hrun]), ih]

/-- A load writes no control state (R79). -/
theorem State.poke_rs_sameControl (a : Nat) (v : Word) (s : State) : s.rs.SameControl (s.poke a v).rs := by
  unfold State.poke
  cases s.sel <;> exact ⟨rfl, rfl, rfl, rfl, rfl⟩

/-- The RS core is stopped with the fault record `r`. -/
structure State.StoppedWith (r : FaultCode × Word × Word) (s : State) : Prop where
  record : s.rs.faultRecord = r
  stopped : s.rs.running = false

theorem State.StoppedWith.poke {r : FaultCode × Word × Word} {s : State} (h : s.StoppedWith r) (a : Nat) (v : Word) :
    (s.poke a v).StoppedWith r := by
  obtain ⟨hrun, -, hcode, hpc, hinfo⟩ := s.poke_rs_sameControl a v
  exact ⟨by rw [← h.record, RsState.faultRecord, hcode, hpc, hinfo, RsState.faultRecord], hrun.trans h.stopped⟩

theorem State.StoppedWith.stepped {r : FaultCode × Word × Word} {s : State} (h : s.StoppedWith r) :
    s.stepped.StoppedWith r := by
  have hrs := s.stepped_rs_of_rs_stopped h.stopped
  exact ⟨by rw [hrs, h.record], by rw [hrs, h.stopped]⟩

/-- Settles O43: a recorded fault means a stopped core (R26), and only `reset` and `start` do more than load or step it. -/
theorem faultRecordIsSticky : Obligations.FaultRecordIsSticky :=
  ⟨fun s t hs hf h => step_rs_of_rs_stopped s t (hs.rs.faultStops hf) h,
    fun s hs hf n => State.iterate_stepped_rs_of_rs_stopped n s (hs.rs.faultStops hf),
    fun x s hs hf hreset hstart =>
      have h := Session.act_induct x s (P := State.StoppedWith s.core.rs.faultRecord) (absurd · hreset) (absurd · hstart)
        (fun a v _ _ ht => ht.poke a v) (fun _ ht => ht.stepped) ⟨rfl, hs.rs.faultStops hf⟩
      ⟨h.record, h.stopped⟩⟩

/-! ### What the host sees -/

@[simp] theorem State.snapshot_running (snapN : Nat) (s : State) : (s.snapshot snapN).running = s.isRunning := by
  unfold State.snapshot State.isRunning
  cases s.sel <;> rfl

@[simp] theorem State.snapshot_cells (snapN : Nat) (s : State) :
    (s.snapshot snapN).cells = s.memory.firstCells s.capacity snapN := by
  unfold State.snapshot State.memory State.capacity
  cases s.sel <;> rfl

theorem RsState.getElem?_regs (i : Fin Config.rsNReg) (s : RsState) : s.x.toList[i.val]? = some (s.reg i) := by
  simp [RsState.reg, Vector.get]

theorem LsState.getElem?_regs (r : BitVec 5) (s : LsState) : s.x.toList[r.toNat]? = some (s.reg r) := by
  simp [LsState.reg, lsRegIndex, Vector.get]

/-- A view shows the selected core (R29, R83), in every state. -/
theorem State.snapshot_shows (snapN : Nat) (s : State) : (s.snapshot snapN).Shows snapN s where
  running := s.snapshot_running snapN
  cellCount := by simp
  cells a ha := by rw [State.snapshot_cells, Memory.getElem?_firstCells _ _ _ _ ha]
  rsRegs hsel := by
    simp only [State.snapshot, hsel]
    exact ⟨Vector.length_toList, fun i => s.rs.getElem?_regs i⟩
  rsRest hsel := by simp [State.snapshot, hsel, RsState.faultRecord]
  lsRegs hsel := by
    simp only [State.snapshot, hsel]
    exact ⟨Vector.length_toList, fun r => s.ls.getElem?_regs r⟩
  lsRest hsel := by simp [State.snapshot, hsel]

/-- Settles O53. -/
theorem snapshotShowsTheCore : Obligations.SnapshotShowsTheCore := fun snapN s =>
  ⟨s.core.snapshot snapN, rfl, s.core.snapshot_shows snapN⟩

/-- The views of an observed RS run, one by one: one after each step taken (R84, R130). -/
theorem State.getElem?_observedSteps (snapN n k : Nat) (s : State) :
    (s.observedSteps snapN n)[k]? =
      if k < n ∧ (s.run k).isRunning = true then some ((s.run (k + 1)).snapshot snapN) else none := by
  induction n generalizing s k with
  | zero => simp [State.observedSteps]
  | succ n ih =>
    cases hrun : s.isRunning with
    | false => simp [State.observedSteps, hrun, State.run_of_stopped k s hrun]
    | true =>
      simp only [State.observedSteps, hrun, if_true, State.run_succ_of_running k s hrun]
      cases k with
      | zero => simp [hrun]
      | succ k => simp [ih, State.run_succ_of_running k s hrun]

/-- Settles O54, from the views of an RS run one by one. -/
theorem observerSeesEachStep : Obligations.ObserverSeesEachStep := by
  refine ⟨fun snapN n k s v hsel hv => ?_, fun snapN n k s hsel hk hrun => ?_, fun snapN n s hsel hend => ?_⟩
  · simp only [State.observedRun, hsel, State.getElem?_observedSteps, Option.ite_none_right_eq_some,
      Option.some.injEq] at hv
    obtain ⟨⟨hk, -⟩, rfl⟩ := hv
    exact ⟨hk, rfl, State.snapshot_shows _ _⟩
  · simp [State.observedRun, hsel, State.getElem?_observedSteps, hk, hrun]
  · exact ⟨by simp [State.observedRun, hsel, hend], State.snapshot_shows _ _⟩

/-! ### The invariants at the start -/

theorem State.constructed_inv : State.constructed.Inv :=
  ⟨⟨by decide, by decide, by decide, by decide, by decide⟩, ⟨by decide, by decide, by decide⟩⟩

/-- Settles O40: `State.reset` is the host's `reset` of both fresh instances (R236), which keeps the invariants. -/
theorem invariantHoldsAtReset : Obligations.InvariantHoldsAtReset :=
  ⟨⟨State.constructed_inv.rs.hostReset, State.constructed_inv.ls.hostReset⟩, State.constructed_inv⟩

end Sys2Proof.Machine

/-! # Proofs: memory (20_memory)

Fetch from memory: a placed word is the one that runs, a PUSH has read its own cells before it writes one, the low bits of an LS
`pc` select nothing. The host's loads: a write to a cell leaves everything but the selected core's memory alone
(`State.OnlyMemoryChanged`), a bulk load is such writes one after the other, and a load is taken exactly between runs. -/

namespace Sys2Proof.Machine

/-! ### Cells placed in memory are the cells fetched -/

theorem Memory.read_writeAll_below (ws : List Word) (m : Memory) (a b : Nat) (h : b < a) :
    Memory.read (m.writeAll a ws) b = Memory.read m b := by
  induction ws generalizing m a with
  | nil => rfl
  | cons w ws ih => rw [Memory.writeAll, ih _ _ (by omega), Memory.read_write_other m a b w (by omega)]

theorem Memory.holds_writeAll (ws : List Word) (m : Memory) (a : Nat) : (m.writeAll a ws).holds a ws = true := by
  induction ws generalizing m a with
  | nil => rfl
  | cons w ws ih => simp [Memory.writeAll, Memory.holds, Memory.read_writeAll_below, ih]

/-- As many cells as stand in memory are fetched, and no more. -/
theorem RsState.cellsFrom_eq_of_holds (s : RsState) (ws : List Word) (a : Word) (hcap : a.toNat + ws.length ≤ 1024)
    (h : s.mem.holds a.toNat ws = true) : s.cellsFrom ws.length a = ws := by
  obtain ⟨rest, hr⟩ := s.cellsFrom_of_holds ws ws.length a le_rfl hcap h
  have hlen := s.length_cellsFrom ws.length a (by omega)
  rw [hr, List.length_append, Nat.min_eq_left (by omega)] at hlen
  rw [hr, List.length_eq_zero_iff.mp (by omega : rest.length = 0), List.append_nil]

/-- A placed RS core runs, with room for the longest instruction at `pc`, where the cells stand (log entry 11). -/
theorem RsState.place_ready (cells : List Word) (s : RsState) :
    (s.place cells).running = true ∧ (s.place cells).pc.toNat + maxLength ≤ 1024 ∧
      (s.place cells).mem.holds (s.place cells).pc.toNat cells = true := by
  unfold RsState.place
  split_ifs with hready
  · obtain ⟨hrun, hroom⟩ := Bool.and_eq_true_iff.mp hready
    exact ⟨hrun, of_decide_eq_true hroom, Memory.holds_writeAll _ _ _⟩
  · exact ⟨rfl, (by decide : Config.entry.toNat + maxLength ≤ 1024), Memory.holds_writeAll _ _ _⟩

/-- A placed LS core runs, with `pc` in memory at the word (log entry 11). -/
theorem LsState.place_ready (w : Word) (s : LsState) :
    (s.place w).running = true ∧ (s.place w).pc.toNat < Config.lsEnd ∧ (s.place w).fetchWord = w := by
  unfold LsState.place
  split_ifs with hready
  · obtain ⟨hrun, hin⟩ := Bool.and_eq_true_iff.mp hready
    exact ⟨hrun, of_decide_eq_true hin, Memory.read_write_self _ _ _⟩
  · exact ⟨rfl, (by decide : Config.entry.toNat < Config.lsEnd), Memory.read_write_self _ _ _⟩

/-- The table's reading of a word is the first instruction that its core's decoder reads from its cells (log entry 10). -/
theorem decodeTableWord_eq_some (nbits w : Nat) (i : Instr) (h : decodeTableWord nbits w = some i) :
    ∃ rest, decode (tableCore (tableCell nbits w 0)) (tableCells nbits w) = .ok (i, rest) := by
  unfold decodeTableWord at h
  cases hd : decode (tableCore (tableCell nbits w 0)) (tableCells nbits w) with
  | error e => simp [hd] at h
  | ok p =>
    obtain ⟨i', rest⟩ := p
    obtain rfl : i' = i := by simpa [hd] using h
    exact ⟨rest, rfl⟩

theorem State.withFetchWord_rs (s : State) (nbits w : Nat) (h : tableCore (tableCell nbits w 0) = .rs) :
    s.withFetchWord nbits w = { s with sel := .rs, rs := s.rs.place (tableCells nbits w) } := by
  simp [State.withFetchWord, State.placeTableWord, h]

theorem State.withFetchWord_ls (s : State) (nbits w : Nat) (h : tableCore (tableCell nbits w 0) = .ls) :
    s.withFetchWord nbits w = { s with sel := .ls, ls := s.ls.place (tableCell nbits w 0) } := by
  simp [State.withFetchWord, State.placeTableWord, h]

/-- Settles O6: on either core, what is placed is fetched whole, and decoded as the table reads it. -/
theorem placedWordIsRunNext : Obligations.PlacedWordIsRunNext := by
  intro s nbits w i hi
  obtain ⟨rest, hd⟩ := decodeTableWord_eq_some nbits w i hi
  cases hc : tableCore (tableCell nbits w 0) with
  | rs =>
    rw [hc] at hd
    rw [s.withFetchWord_rs nbits w hc]
    obtain ⟨hrun, hroom, hholds⟩ := s.rs.place_ready (tableCells nbits w)
    have hcells : (s.rs.place (tableCells nbits w)).fetchCells = tableCells nbits w :=
      RsState.cellsFrom_eq_of_holds _ (tableCells nbits w) _ hroom hholds
    exact step_rs_of_decode_ok _ i rest rfl hrun ((congrArg (decode .rs) hcells).trans hd)
  | ls =>
    rw [hc] at hd
    rw [s.withFetchWord_ls nbits w hc]
    obtain ⟨hrun, hin, hword⟩ := s.ls.place_ready (tableCell nbits w 0)
    obtain rfl : decodeLs (tableCell nbits w 0) = i := congrArg Prod.fst (Except.ok.inj hd)
    rw [step_ls_in_memory _ rfl hrun hin, hword]

/-! ### A PUSH onto its own cells -/

/-- An instruction that the RS decoder reads from its own cells, whatever follows, runs when it stands at `pc`. -/
theorem runsWhenFetched_of_decode (i : Instr) (hlen : (encode i).length ≤ maxLength)
    (hd : ∀ rest, decode .rs (encode i ++ rest) = .ok (i, rest)) : RunsWhenFetched i := by
  intro s hsel hrun hcap hholds
  obtain ⟨rest, hcells⟩ := s.rs.cellsFrom_of_holds (encode i) maxLength s.rs.pc hlen hcap hholds
  exact step_rs_of_decode_ok s i rest hsel hrun (by rw [RsState.fetchCells, hcells, hd])

theorem runsWhenFetched_push (v : Word) : RunsWhenFetched (.push v) :=
  runsWhenFetched_of_decode _ (by simp [encode, maxLength]) fun _ => rfl

/-- PUSH with room on the stack (R160, R162). -/
theorem execPush_room (v : Word) (s : State) (h1 : 1 ≤ s.rs.sp.toNat) (h2 : s.rs.sp.toNat ≤ 1024) :
    execPush v s = .next { s with rs :=
      { s.rs.advance 2 with sp := s.rs.sp - 1, mem := s.rs.mem.write (s.rs.sp - 1).toNat v } } := by
  rw [execPush, RsState.push_room _ _ (s.rs.advance 2) h1 h2]
  rfl

/-- Settles O29: the step is the PUSH of the operand cell as it was, wherever `sp` points. -/
theorem pushOntoItselfUsesFetchedCells : Obligations.PushOntoItselfUsesFetchedCells := by
  intro s hsel hrun hpc hop hsp1 hsp2 _
  have hstep : step s = execPush (s.rs.mem.read (s.rs.pc.toNat + 1)) s :=
    runsWhenFetched_push _ s hsel hrun hpc (by simp [encode, Memory.holds, hop, opcPush])
  rw [execPush_room _ s hsp1 hsp2] at hstep
  exact ⟨_, hstep, hrun, rfl, rfl, Memory.read_write_self _ _ _, fun a ha => Memory.read_write_other _ _ a _ ha⟩

/-! ### A misaligned LS fetch -/

/-- Every LS instruction but a jump leaves `pc` at the next word (R33, R177). -/
theorem exec_ls_pc (i : Instr) (s t : State) (hc : i.core = .ls) (hj : ∀ target, i ≠ .j target)
    (h : exec i s = .next t) : t.ls.pc = s.ls.pc + 4 := by
  rcases exec_ls_cases i s t hc h with ⟨w, hi, -⟩ | ⟨-, ht⟩ | ⟨_, _, _, -, ht⟩ | ⟨_, -, ht⟩
  · exact absurd hi (hj w)
  all_goals simp [ht]

/-- Settles O38: the fetch divides `pc` by 4, and an advance inside memory does not wrap. -/
theorem misalignedLsFetchDropsLowBits : Obligations.MisalignedLsFetchDropsLowBits := by
  intro s t hsel hrun hpc h
  have hstep := s.ls.fetchWord_eq ▸ step_ls_in_memory s hsel hrun hpc
  refine ⟨hstep, fun hj => ?_⟩
  rw [exec_ls_pc _ s t (decodeLs_core _) hj (hstep.symm.trans h)]
  bv_omega

/-! ### What a load leaves alone -/

/-- `t` is `s` but for the memory of the selected core (R79). -/
structure State.OnlyMemoryChanged (s t : State) : Prop where
  rs : s.sel = .rs → t = { s with rs := { s.rs with mem := t.rs.mem } }
  ls : s.sel = .ls → t = { s with ls := { s.ls with mem := t.ls.mem } }

theorem State.OnlyMemoryChanged.refl (s : State) : s.OnlyMemoryChanged s := ⟨fun _ => rfl, fun _ => rfl⟩

theorem State.OnlyMemoryChanged.sel_eq {s t : State} (h : s.OnlyMemoryChanged t) : t.sel = s.sel := by
  cases hsel : s.sel with
  | rs => rw [h.rs hsel, hsel]
  | ls => rw [h.ls hsel, hsel]

theorem State.OnlyMemoryChanged.poke {s t : State} (h : s.OnlyMemoryChanged t) (a : Nat) (v : Word) :
    s.OnlyMemoryChanged (t.poke a v) := by
  cases hsel : s.sel with
  | rs =>
    obtain ⟨m, ht⟩ : ∃ m, t = { s with rs := { s.rs with mem := m } } := ⟨_, h.rs hsel⟩
    refine ⟨fun _ => ?_, fun hls => absurd (hsel.symm.trans hls) nofun⟩
    rw [State.poke_rs a v t (h.sel_eq.trans hsel), ht]
  | ls =>
    obtain ⟨m, ht⟩ : ∃ m, t = { s with ls := { s.ls with mem := m } } := ⟨_, h.ls hsel⟩
    refine ⟨fun hrs => absurd (hrs.symm.trans hsel) nofun, fun _ => ?_⟩
    rw [State.poke_ls a v t (h.sel_eq.trans hsel), ht]

theorem loadImage_onlyMemoryChanged (base : Nat) (image : List Word) (s : State) :
    s.OnlyMemoryChanged (loadImage base image s).1 :=
  loadImage_induct (fun a v _ _ h => h.poke a v) base image s (.refl s)

@[simp] theorem loadImage_sel (base : Nat) (image : List Word) (s : State) : (loadImage base image s).1.sel = s.sel :=
  (loadImage_onlyMemoryChanged base image s).sel_eq

/-! ### The host's transactions between and during runs -/

/-- A load during a run is turned away (R81). -/
theorem Session.act_load_during_run (s : Session) (h : s.inRun = true) (a : Nat) (v : Word) (base : Nat)
    (image : List Word) :
    s.act (.loadWord a v) = (s, .turnedAway .hostWriteDuringRun) ∧
      s.act (.loadImage base image) = (s, .turnedAway .hostWriteDuringRun) := by
  simp [Session.act, Session.loaded, h]

/-- Between runs a load of a word is the port's (R79). -/
theorem Session.act_loadWord (s : Session) (h : s.inRun = false) (a : Nat) (v : Word) :
    s.act (.loadWord a v) = s.loaded (loadWord a v s.core) := by
  simp [Session.act, h]

/-- Between runs a load of an image is the port's (R80). -/
theorem Session.act_loadImage (s : Session) (h : s.inRun = false) (base : Nat) (image : List Word) :
    s.act (.loadImage base image) = s.loadedImage (loadImage base image s.core) := by
  simp [Session.act, h]

@[simp] theorem Session.loaded_inRun (s : Session) (o : Host.Outcome State Fault Refusal) :
    (s.loaded o).1.inRun = s.inRun := by
  cases o <;> rfl

/-- Settles O48, from one write to a cell and the port's range test. -/
theorem loadWordWritesOneCellOrNothing : Obligations.LoadWordWritesOneCellOrNothing := by
  refine ⟨fun a v s ha => ?_, fun a v s ha hrun => ?_⟩
  · have hframe := (State.OnlyMemoryChanged.refl s).poke a v
    exact ⟨s.poke a v, loadWord_in a v s ha, by simp [State.read_poke], fun b hb => by simp [State.read_poke, hb],
      hframe.rs, hframe.ls⟩
  · rw [s.act_loadWord hrun, loadWord_out a v _ ha]
    rfl

/-! ### Bulk loads -/

/-- Each cell after a bulk load (R80). -/
theorem read_loadImage (base : Nat) (image : List Word) (s : State) (a : Nat) :
    (loadImage base image s).1.memory.read a =
      if base ≤ a ∧ a < base + image.length ∧ a < s.capacity then image.getD (a - base) 0 else s.memory.read a := by
  induction image generalizing base s with
  | nil =>
    rw [if_neg (by rw [List.length_nil]; omega)]
    rfl
  | cons w ws ih =>
    rcases loadImage_cons_cases base w ws s with ⟨hin, he⟩ | ⟨hout, he⟩ <;> rw [he]
    · rw [ih, State.read_poke, State.poke_capacity, List.length_cons]
      rcases Nat.lt_trichotomy a base with hlt | rfl | hgt
      · rw [if_neg (by omega), if_neg (by omega), if_neg (by omega)]
      · rw [if_neg (by omega), if_pos rfl, if_pos (by omega), Nat.sub_self, List.getD_cons_zero]
      · have hcovered : (base + 1 ≤ a ∧ a < base + 1 + ws.length ∧ a < s.capacity) ↔
            (base ≤ a ∧ a < base + (ws.length + 1) ∧ a < s.capacity) := by omega
        have hindex : a - base = a - (base + 1) + 1 := by omega
        simp only [hcovered, hindex, List.getD_cons_succ, if_neg hgt.ne']
    · rw [if_neg (by omega)]

/-- The error a bulk load reports: the first address out of range (log entry 13). -/
theorem loadImage_error (base : Nat) (image : List Word) (s : State) :
    (loadImage base image s).2 =
      if image ≠ [] ∧ s.capacity < base + image.length then some (.hostAddressOutOfRange (max base s.capacity))
      else none := by
  induction image generalizing base s with
  | nil => simp [loadImage]
  | cons w ws ih =>
    rcases loadImage_cons_cases base w ws s with ⟨hin, he⟩ | ⟨hout, he⟩ <;> rw [he]
    · have hpast : (ws ≠ [] ∧ s.capacity < base + 1 + ws.length) ↔
          (w :: ws ≠ [] ∧ s.capacity < base + (w :: ws).length) := by
        simp only [← List.length_pos_iff, List.length_cons]
        omega
      rw [ih, State.poke_capacity, max_eq_right hin.le, max_eq_right hin]
      simp only [hpast]
    · rw [if_pos ⟨by simp, by rw [List.length_cons]; omega⟩, max_eq_left hout]

theorem loadImage_error_of_fits (base : Nat) (image : List Word) (s : State) (h : base + image.length ≤ s.capacity) :
    (loadImage base image s).2 = none := by
  rw [loadImage_error, if_neg (by omega)]

/-- Settles O49, from the cells, the frame and the error of a bulk load. -/
theorem loadImageWritesEachWordInRange : Obligations.LoadImageWritesEachWordInRange := by
  refine ⟨fun base image s => ?_, fun base image s hrun => ?_⟩
  · have hframe := loadImage_onlyMemoryChanged base image s
    exact ⟨read_loadImage base image s, hframe.rs, hframe.ls, loadImage_error base image s⟩
  · rw [s.act_loadImage hrun]
    exact ⟨rfl, fun he => by simp [Session.loadedImage, he], fun f he => by simp [Session.loadedImage, he]⟩

/-! ### Loads between runs only -/

/-- Between runs a word in range and an image that fits are taken (R79, R80, R81). -/
theorem Session.act_load_between_runs (s : Session) (h : s.inRun = false) (a : Nat) (v : Word) (base : Nat)
    (image : List Word) :
    (a < s.core.capacity → (s.act (.loadWord a v)).2 = .ok) ∧
      (base + image.length ≤ s.core.capacity → (s.act (.loadImage base image)).2 = .ok) := by
  refine ⟨fun ha => ?_, fun hfits => ?_⟩
  · rw [s.act_loadWord h, loadWord_in a v _ ha]
    rfl
  · simp [s.act_loadImage h, Session.loadedImage, loadImage_error_of_fits base image _ hfits]

/-- A load, taken or not, does not begin or end a run (R81). -/
theorem Session.act_load_keeps_inRun (s : Session) (a : Nat) (v : Word) (base : Nat) (image : List Word) :
    (s.act (.loadWord a v)).1.inRun = s.inRun ∧ (s.act (.loadImage base image)).1.inRun = s.inRun := by
  cases h : s.inRun with
  | true =>
    obtain ⟨hword, himage⟩ := s.act_load_during_run h a v base image
    rw [hword, himage, h]
    exact ⟨rfl, rfl⟩
  | false =>
    rw [s.act_loadWord h, s.act_loadImage h, Session.loaded_inRun, h]
    exact ⟨rfl, h⟩

/-- A step, or a run of at least one step, is in progress after it exactly where it leaves the core running (R81). -/
theorem Session.act_step_inRun (s : Session) (x : Transaction) (hx : x = .step ∨ ∃ n, x = .run (n + 1)) :
    (s.act x).1.inRun = (s.act x).1.core.isRunning := by
  rcases hx with rfl | ⟨n, rfl⟩ <;> simp [Session.act]

/-- A core that does not run is in no run after a step or a run (R81). -/
theorem Session.act_inRun_of_stopped (s : Session) (x : Transaction) (hx : x = .step ∨ ∃ n, x = .run n)
    (hstop : (s.act x).1.core.isRunning = false) : (s.act x).1.inRun = false := by
  rcases hx with rfl | ⟨n, rfl⟩
  · exact hstop
  · exact Bool.and_eq_false_imp.mpr fun hrun => absurd (hrun.symm.trans hstop) nofun

/-- Settles O50, from what a load does during a run and between runs, and which transactions leave a run in progress. -/
theorem loadsOnlyBetweenRuns : Obligations.LoadsOnlyBetweenRuns := by
  refine ⟨fun s x a v base image hx hrun => ?_, fun s x a v base image hx => ?_, fun c a v base image => ?_,
    fun s a v base image snapN => ?_⟩
  · exact Session.act_load_during_run _ ((s.act_step_inRun x hx).trans hrun) a v base image
  · refine Session.act_load_between_runs _ ?_ a v base image
    rcases hx with rfl | rfl | ⟨hx, hstop⟩
    · rfl
    · rfl
    · exact s.act_inRun_of_stopped x hx hstop
  · exact Session.act_load_between_runs _ rfl a v base image
  · obtain ⟨hword, himage⟩ := s.act_load_keeps_inRun a v base image
    exact ⟨hword, himage, rfl, rfl⟩

/-! ### The launch state -/

theorem State.hostReset_rs (s : State) (h : s.sel = .rs) : s.hostReset.rs = s.rs.hostReset := by
  simp [State.hostReset, h]

theorem State.hostReset_ls (s : State) (h : s.sel = .ls) : s.hostReset.ls = s.ls.hostReset := by
  simp [State.hostReset, h]

theorem RsState.reg_hostReset (i : Fin Config.rsNReg) (s : RsState) : s.hostReset.reg i = 0 := by
  fin_cases i <;> rfl

theorem LsState.reg_hostReset (r : BitVec 5) (s : LsState) : s.hostReset.reg r = 0 := by
  simp [LsState.reg, Vector.get]

/-- Construction selects the core and stores nothing (R230). -/
theorem State.read_memory_constructed (c : CoreKind) (a : Nat) :
    ({ State.constructed with sel := c } : State).memory.read a = 0 := by
  cases c <;> rfl

theorem State.launch_sel (c : CoreKind) (image : List Word) : (State.launch c image).1.sel = c :=
  (State.hostReset_sel _).trans (loadImage_sel 0 image _)

theorem State.launch_capacity (c : CoreKind) (image : List Word) :
    (State.launch c image).1.capacity = ({ State.constructed with sel := c } : State).capacity := by
  simp only [State.capacity, State.launch_sel]

/-- Settles O51: `reset` keeps the memory that the bulk load wrote from cell 0, and gives every other field its value. -/
theorem launchStateHoldsImage : Obligations.LaunchStateHoldsImage := by
  intro c image
  have hsel : (loadImage 0 image { State.constructed with sel := c }).1.sel = c := loadImage_sel 0 image _
  refine ⟨State.launch_sel c image, State.hostReset_isRunning _, fun a ha => ?_, fun hc => ?_, fun hc => ?_, ?_⟩
  · rw [State.launch_capacity] at ha
    rw [State.launch, State.hostReset_memory, read_loadImage, State.read_memory_constructed]
    simp only [Nat.zero_le, Nat.zero_add, ha, true_and, and_true, Nat.sub_zero]
    split_ifs with hlen
    · rfl
    · rw [List.getD_eq_default _ _ (Nat.not_lt.mp hlen)]
  · rw [State.launch, State.hostReset_rs _ (hsel.trans hc)]
    exact ⟨rfl, rfl, fun i => RsState.reg_hostReset i _, rfl⟩
  · rw [State.launch, State.hostReset_ls _ (hsel.trans hc)]
    exact ⟨rfl, fun r => LsState.reg_hostReset r _⟩
  · rw [State.launch_capacity, State.launch, loadImage_error, Nat.zero_add, max_eq_right (Nat.zero_le _)]
    refine if_congr ⟨And.right, fun h => ⟨?_, h⟩⟩ rfl rfl
    rintro rfl
    exact absurd h (Nat.not_lt_zero _)

end Sys2Proof.Machine

/-! # Proofs: the encoding (30_encoding)

The RS decoder is said once by `RsReads`: what an opcode cell makes of the cells after it, proved once per format (R91) and then
for every opcode cell. The LS decoder is said once per kind of word, by the opcode field (R100, R106). The two halves of the
round trip and the lengths follow from these. -/

namespace Sys2Proof

open Sys2Proof.Machine

/-! ### The RS opcode cells, by format -/

/-- How the RS decoder reads from an opcode cell `op` (R90, R98): well-formed instructions, each from its own `n` cells, exactly
where `n` cells are there. -/
structure RsReads (op : Word) (n : Nat) : Prop where
  one_le : 1 ≤ n
  le_four : n ≤ 4
  reads : ∀ (ws r : List Word) (i : Instr), decodeRs (op :: ws) = .ok (i, r) →
    i.wellFormed = true ∧ encode i ++ r = op :: ws ∧ (encode i).length = n
  succeeds_iff : ∀ ws : List Word, (∃ i r, decodeRs (op :: ws) = .ok (i, r)) ↔ n ≤ (op :: ws).length

/-- Format RS-N, and every opcode cell with no format (R91, R97). -/
theorem RsReads.noOperand {op : Word} {i : Instr} (hwf : i.wellFormed = true) (henc : encode i = [op])
    (hdec : ∀ ws, decodeRs (op :: ws) = .ok (i, ws)) : RsReads op 1 where
  one_le := by decide
  le_four := by decide
  reads ws r i' h := by
    cases (hdec ws).symm.trans h
    simp [hwf, henc]
  succeeds_iff ws := by simp [hdec]

/-- Formats RS-I and RS-R (R91). -/
theorem RsReads.oneOperand {op : Word} {mk : Word → Instr} (hwf : ∀ a, (mk a).wellFormed = true)
    (henc : ∀ a, encode (mk a) = [op, a]) (hdec : ∀ ws, decodeRs (op :: ws) = takeOne mk ws) : RsReads op 2 where
  one_le := by decide
  le_four := by decide
  reads ws r i h := by
    obtain ⟨a, rfl, rfl⟩ := (takeOne_ok mk ws r i).mp ((hdec ws).symm.trans h)
    simp [hwf, henc]
  succeeds_iff ws := by rcases ws with _ | ⟨a, ws⟩ <;> simp [hdec, takeOne]

/-- Format RS-RI (R91). -/
theorem RsReads.twoOperands {op : Word} {mk : Word → Word → Instr} (hwf : ∀ a b, (mk a b).wellFormed = true)
    (henc : ∀ a b, encode (mk a b) = [op, a, b]) (hdec : ∀ ws, decodeRs (op :: ws) = takeTwo mk ws) : RsReads op 3 where
  one_le := by decide
  le_four := by decide
  reads ws r i h := by
    obtain ⟨a, b, rfl, rfl⟩ := (takeTwo_ok mk ws r i).mp ((hdec ws).symm.trans h)
    simp [hwf, henc]
  succeeds_iff ws := by rcases ws with _ | ⟨a, _ | ⟨b, ws⟩⟩ <;> simp [hdec, takeTwo]

/-- Format RS-RRR (R91). -/
theorem RsReads.threeOperands {op : Word} {mk : Word → Word → Word → Instr}
    (hwf : ∀ a b c, (mk a b c).wellFormed = true) (henc : ∀ a b c, encode (mk a b c) = [op, a, b, c])
    (hdec : ∀ ws, decodeRs (op :: ws) = takeThree mk ws) : RsReads op 4 where
  one_le := by decide
  le_four := by decide
  reads ws r i h := by
    obtain ⟨a, b, c, rfl, rfl⟩ := (takeThree_ok mk ws r i).mp ((hdec ws).symm.trans h)
    simp [hwf, henc]
  succeeds_iff ws := by rcases ws with _ | ⟨a, _ | ⟨b, _ | ⟨c, ws⟩⟩⟩ <;> simp [hdec, takeThree]

theorem wellFormed_unknown_iff (op : Word) : (Instr.unknown op).wellFormed = true ↔ op ∉ numberedOpcodes := by
  simp [Instr.wellFormed]

/-- The opcode cell alone selects the format (R90, R93, R98). -/
theorem exists_rsReads (op : Word) : ∃ n, RsReads op n := by
  rcases opcode_cases op with rfl | rfl | rfl | rfl | rfl | rfl | rfl | rfl | rfl | rfl | rfl | hu
  · exact ⟨1, .noOperand rfl rfl decodeRs_nop⟩
  · exact ⟨3, .twoOperands (fun _ _ => rfl) (fun _ _ => rfl) decodeRs_ldi⟩
  · exact ⟨4, .threeOperands (fun _ _ _ => rfl) (fun _ _ _ => rfl) decodeRs_add⟩
  · exact ⟨4, .threeOperands (fun _ _ _ => rfl) (fun _ _ _ => rfl) decodeRs_sub⟩
  · exact ⟨4, .threeOperands (fun _ _ _ => rfl) (fun _ _ _ => rfl) decodeRs_mul⟩
  · exact ⟨2, .oneOperand (fun _ => rfl) (fun _ => rfl) decodeRs_jmp⟩
  · exact ⟨1, .noOperand rfl rfl decodeRs_hlt⟩
  · exact ⟨2, .oneOperand (fun _ => rfl) (fun _ => rfl) decodeRs_push⟩
  · exact ⟨2, .oneOperand (fun _ => rfl) (fun _ => rfl) decodeRs_pop⟩
  · exact ⟨1, .noOperand rfl rfl decodeRs_call⟩
  · exact ⟨1, .noOperand rfl rfl decodeRs_ret⟩
  · exact ⟨1, .noOperand ((wellFormed_unknown_iff op).mpr hu) rfl fun ws => decodeRs_unknown op ws hu⟩

/-! ### The LS words, by opcode field -/

/-- The zero sentinel has opcode field 0, so a word with another field is not the sentinel (R104). -/
theorem ne_sentinel_of_opcode (w : Word) (h : w.extractLsb' 26 6 ≠ 0) : w ≠ Config.lsSentinel := by
  rintro rfl
  exact h rfl

/-- An LS instruction is its first cell (R99). -/
theorem decode_ls_cons (w : Word) (rest : List Word) : decode .ls (w :: rest) = .ok (decodeLs w, rest) := rfl

theorem decodeLs_addi (w : Word) (h : w.extractLsb' 26 6 = 0b001000) :
    decodeLs w = .addi (w.extractLsb' 21 5) (w.extractLsb' 16 5) (w.extractLsb' 0 16) := by
  rw [decodeLs, if_neg (ne_sentinel_of_opcode w (h ▸ by decide)), if_pos ((opMask_addi w).mpr h)]
  rfl

theorem decodeLs_j (w : Word) (h : w.extractLsb' 26 6 = 0b000011) : decodeLs w = .j (w.extractLsb' 0 26) := by
  have h8 : ¬ w &&& Config.lsOpMask = lsMatchAddi := by
    rw [opMask_addi, h]
    decide
  rw [decodeLs, if_neg (ne_sentinel_of_opcode w (h ▸ by decide)), if_neg h8, if_pos ((opMask_j w).mpr h)]
  rfl

theorem decodeLs_unrecognised (w : Word) (h0 : w ≠ 0) (h8 : w.extractLsb' 26 6 ≠ 0b001000)
    (h3 : w.extractLsb' 26 6 ≠ 0b000011) : decodeLs w = .unrecognised w := by
  have hs : w ≠ Config.lsSentinel := h0
  rw [decodeLs, if_neg hs, if_neg (mt (opMask_addi w).mp h8), if_neg (mt (opMask_j w).mp h3)]

/-- R105 by the opcode field. -/
theorem wellFormed_unrecognised_iff (w : Word) : (Instr.unrecognised w).wellFormed = true ↔
    w ≠ 0 ∧ w.extractLsb' 26 6 ≠ 0b001000 ∧ w.extractLsb' 26 6 ≠ 0b000011 := by
  simp only [Instr.wellFormed, isUnrecognisedWord, Bool.and_eq_true, bne_iff_ne, ne_eq, opMask_addi, opMask_j, and_assoc]
  rfl

/-- Settles O4, from the LS decoder's reading of each kind of word. -/
theorem lsWordDecodesByOpcodeField : Obligations.LsWordDecodesByOpcodeField :=
  ⟨rfl, fun w h0 => ⟨decodeLs_addi w, decodeLs_j w, decodeLs_unrecognised w h0⟩⟩

/-- Settles O5: the RS cells by their opcode number, the LS words by their opcode field. -/
theorem writtenOutWordsDecode : Obligations.WrittenOutWordsDecode := by
  refine ⟨decodeRs_sub [0, 1, 2], decodeRs_ldi [2, 77, 6], decodeRs_push [55], decodeRs_unknown 0x100 [] (by decide),
    ?_, ?_, ?_⟩
  · rw [decode_ls_cons, decodeLs_addi _ rfl]
    rfl
  · rw [decode_ls_cons, decodeLs_j _ rfl]
    rfl
  · rw [decode_ls_cons, decodeLs_unrecognised _ (by decide) (by decide) (by decide)]

/-! ### The round trip -/

/-- Settles O1: each RS arm by its decoder equation, each LS arm by the opcode field and the fields of its word. -/
theorem decodeOfEncodeGivesInstruction : Obligations.DecodeOfEncodeGivesInstruction := by
  intro i rest hwf
  cases i with
  | unknown op => exact decodeRs_unknown op rest ((wellFormed_unknown_iff op).mp hwf)
  | addi src dst imm => simp [Instr.core, decode_ls_cons, decodeLs_addi]
  | j target => simp [Instr.core, decode_ls_cons, decodeLs_j]
  | unrecognised w =>
    obtain ⟨h0, h8, h3⟩ := (wellFormed_unrecognised_iff w).mp hwf
    simp [Instr.core, encode, decode_ls_cons, decodeLs_unrecognised w h0 h8 h3]
  | nop | ldi | add | sub | mul | jmp | hlt | push | pop | call | ret | sentinel => rfl

/-- The LS decoder reads a well-formed instruction from its own word (R106). -/
theorem encode_of_decodeLs (w : Word) : (decodeLs w).wellFormed = true ∧ encode (decodeLs w) = [w] := by
  by_cases h0 : w = 0
  · subst h0
    exact ⟨rfl, rfl⟩
  by_cases h8 : w.extractLsb' 26 6 = 0b001000
  · rw [decodeLs_addi w h8, encode_addi, addiWord_of_fields w h8]
    exact ⟨rfl, rfl⟩
  by_cases h3 : w.extractLsb' 26 6 = 0b000011
  · rw [decodeLs_j w h3, encode_j, jumpWord_of_fields w h3]
    exact ⟨rfl, rfl⟩
  rw [decodeLs_unrecognised w h0 h8 h3]
  exact ⟨(wellFormed_unrecognised_iff w).mpr ⟨h0, h8, h3⟩, rfl⟩

/-- Settles O2, core by core. -/
theorem encodeOfDecodeGivesCells : Obligations.EncodeOfDecodeGivesCells := by
  intro c cells rest i h
  cases c with
  | rs =>
    cases cells with
    | nil => cases h
    | cons op ws =>
      obtain ⟨n, hop⟩ := exists_rsReads op
      obtain ⟨hwf, hcells, -⟩ := hop.reads ws rest i h
      exact ⟨hwf, decodeRs_core (op :: ws) rest i h, hcells⟩
  | ls =>
    cases cells with
    | nil => cases h
    | cons w ws =>
      cases h
      obtain ⟨hwf, hword⟩ := encode_of_decodeLs w
      exact ⟨hwf, decodeLs_core w, by rw [hword]; rfl⟩

/-! ### The length -/

/-- The cell count of every instruction of either core, from the count per constructor (R90, R99). -/
theorem cellCount (i : Instr) : Laws.CellCount.Statement i :=
  match i with
  | .nop => Laws.CellCount.nop
  | .ldi dst imm => Laws.CellCount.ldi dst imm
  | .add dst a b => Laws.CellCount.add dst a b
  | .sub dst a b => Laws.CellCount.sub dst a b
  | .mul dst a b => Laws.CellCount.mul dst a b
  | .jmp target => Laws.CellCount.jmp target
  | .hlt => Laws.CellCount.hlt
  | .push value => Laws.CellCount.push value
  | .pop dst => Laws.CellCount.pop dst
  | .call => Laws.CellCount.call
  | .ret => Laws.CellCount.ret
  | .unknown op => Laws.CellCount.unknown op
  | .sentinel => Laws.CellCount.sentinel
  | .addi src dst imm => Laws.CellCount.addi src dst imm
  | .j target => Laws.CellCount.j target
  | .unrecognised w => Laws.CellCount.unrecognised w

/-- Settles O3: the opcode cell's one number of cells is both lengths, and what the decoder asks for. -/
theorem opcodeCellAloneFixesLength : Obligations.OpcodeCellAloneFixesLength := by
  refine ⟨fun op ws ws' r r' i i' h h' => ?_, fun i => ?_, fun op => ?_⟩
  · obtain ⟨n, hop⟩ := exists_rsReads op
    obtain ⟨-, -, hlen⟩ := hop.reads ws r i h
    obtain ⟨-, -, hlen'⟩ := hop.reads ws' r' i' h'
    exact hlen.trans hlen'.symm
  · obtain ⟨hlen, hmin, hmax, -⟩ := cellCount i
    exact ⟨hlen ▸ hmin, hlen ▸ hmax⟩
  · obtain ⟨n, hop⟩ := exists_rsReads op
    exact ⟨n, hop.one_le, hop.le_four, hop.succeeds_iff⟩

end Sys2Proof

/-! # Proofs: the RS step (40_rs_step)

The reference step of R127 is said once by its four ends: no opcode cell, an opcode cell with no entry, an operand cell missing,
an instruction fetched whole (`refFinish`). What each decoded instruction does is compared with `refFinish` per instruction; the
round trip of the encoding says which cells were fetched. -/

namespace Sys2Proof.Machine

/-! ### The gate and the dispatch -/

/-- What `step` returns is the running flag of the state it answers (R128). -/
theorem stepReturns_of_step (s t : State) (h : step s = .next t) : s.stepReturns = t.isRunning := by
  rw [State.stepReturns, Host.Outcome.next.inj ((step_eq_stepped s).symm.trans h)]

/-- Settles O9, by the gate of each core. -/
theorem stepOfStoppedCoreChangesNothing : Obligations.StepOfStoppedCoreChangesNothing := fun s hrun =>
  have hstep := step_of_not_running s hrun
  ⟨hstep, (stepReturns_of_step s s hstep).trans hrun⟩

/-- Settles O7, from the two ends of a step at which an instruction runs. -/
theorem stepRunsDecodedInstruction : Obligations.StepRunsDecodedInstruction :=
  ⟨step_rs_of_decode_ok, step_ls_in_memory⟩

/-- Settles O8: by the round trip, the cells at `pc` decode to the instruction they encode. -/
theorem encodedCellsRunAsTheirInstruction : Obligations.EncodedCellsRunAsTheirInstruction := by
  intro i hwf
  obtain ⟨hlen, -, hmax, -⟩ := cellCount i
  refine ⟨fun hc => ?_, fun hc s hsel hrun hpc henc => ?_⟩
  · exact runsWhenFetched_of_decode i (hlen ▸ hmax) fun rest => hc ▸ decodeOfEncodeGivesInstruction i rest hwf
  · have hd := decodeOfEncodeGivesInstruction i [] hwf
    rw [hc, henc, List.append_nil, decode_ls_cons, ← s.ls.fetchWord_eq] at hd
    obtain rfl : decodeLs s.ls.fetchWord = i := congrArg Prod.fst (Except.ok.inj hd)
    exact step_ls_in_memory s hsel hrun hpc

/-! ### `pc` after an instruction -/

@[simp] theorem RsState.push_pc (o v : Word) (s : RsState) : (s.push o v).pc = s.pc := by
  rcases s.push_cases o v with ⟨-, h⟩ | ⟨-, h⟩ | ⟨-, h⟩ <;> simp [h]

@[simp] theorem RsState.pop_pc (o : Word) (s : RsState) : (s.pop o).2.pc = s.pc := by
  rcases s.pop_cases o with ⟨-, h⟩ | ⟨-, h⟩ <;> simp [h]

/-- Settles O30, over the ends of an RS instruction. -/
theorem rsPcAfterEachInstruction : Obligations.RsPcAfterEachInstruction := by
  refine fun i s t hc h => ⟨?_, fun hj => ?_⟩
  · rintro target rfl
    cases h
    rfl
  · rcases exec_rs_cases i s t hc h with ⟨d, v, -, -, ht⟩ | ⟨w, -, ht⟩ | ⟨v, rfl, ht⟩ | ⟨d, rfl, ht⟩ | ⟨w, rfl, -⟩ |
      ⟨rfl, ht⟩ | ⟨rfl, ht⟩ | ⟨w, hlen, -, -, ht⟩
    case inr.inr.inr.inr.inl => exact absurd rfl (hj w)
    case inr.inr.inr.inr.inr.inr.inr => simp [ht, hlen]
    all_goals simp [ht, encode]

/-! ### Runs -/

/-- A step of a stopped core is no step (R120, R175). -/
theorem State.stepped_of_stopped (s : State) (hrun : s.isRunning = false) : s.stepped = s :=
  Host.Outcome.next.inj ((step_eq_stepped s).symm.trans (step_of_not_running s hrun))

/-- The gate makes the steps after the end of a run no steps, so a run is its fuel's number of steps (R129, R185). -/
theorem State.run_eq_iterate (n : Nat) (s : State) : s.run n = State.stepped^[n] s := by
  induction n generalizing s with
  | zero => rfl
  | succ n ih =>
    cases hrun : s.isRunning with
    | false => rw [State.run_of_stopped _ s hrun, Function.iterate_fixed (s.stepped_of_stopped hrun)]
    | true => rw [State.run_succ_of_running n s hrun, ih, Function.iterate_succ_apply]

theorem State.run_add (n m : Nat) (s : State) : s.run (n + m) = (s.run n).run m := by
  simp only [State.run_eq_iterate, ← Function.iterate_add_apply, Nat.add_comm n m]

theorem State.run_succ (n : Nat) (s : State) : s.run (n + 1) = (s.run n).stepped := by
  simp only [State.run_eq_iterate, Function.iterate_succ_apply']

/-- A run that has ended stands at the first of its states in which the core is not running (R129, R185). -/
theorem State.run_first_stopped (n : Nat) (s : State) (hend : (s.run n).isRunning = false) :
    ∃ k, k ≤ n ∧ s.run n = State.stepped^[k] s ∧ ∀ j, j < k → (State.stepped^[j] s).isRunning = true := by
  induction n generalizing s with
  | zero => exact ⟨0, le_rfl, rfl, nofun⟩
  | succ n ih =>
    cases hrun : s.isRunning with
    | false => exact ⟨0, Nat.zero_le _, State.run_of_stopped _ s hrun, nofun⟩
    | true =>
      rw [State.run_succ_of_running n s hrun] at hend ⊢
      obtain ⟨k, hk, hstands, hbefore⟩ := ih _ hend
      refine ⟨k + 1, Nat.succ_le_succ hk, hstands, fun j hj => ?_⟩
      cases j with
      | zero => exact hrun
      | succ j => exact hbefore j (Nat.lt_of_succ_lt_succ hj)

/-- Settles O52: a run is iterated steps, so its fuel adds up as iteration does. -/
theorem runStopsAtFirstStoppedState : Obligations.RunStopsAtFirstStoppedState :=
  ⟨State.run_eq_iterate, State.run_first_stopped,
    fun n m s hend => (s.run_add n m).trans (State.run_of_stopped m _ hend), State.run_add, State.run_succ⟩

/-! ### The end of the reference step -/

/-- The pseudocode of R127 after its fetches: the register-index loop of R124, then the execution of R125. -/
def refFinish (opcAddr op : Word) (shape : List OperandKind) (ws : List Word) (s : RsState) : RsState :=
  match refBadRegister shape ws with
  | some bad => s.raise opcAddr .registerIndexOutOfRange bad
  | none => refExecute opcAddr op ws s

/-- The first bad operand is reported (R124). -/
theorem refFinish_bad (o op bad : Word) (shape : List OperandKind) (ws : List Word) (s : RsState)
    (h : refBadRegister shape ws = some bad) :
    refFinish o op shape ws s = s.raise o .registerIndexOutOfRange bad := by
  rw [refFinish, h]

/-- With no bad operand the instruction executes (R125). -/
theorem refFinish_good (o op : Word) (shape : List OperandKind) (ws : List Word) (s : RsState)
    (h : refBadRegister shape ws = none) : refFinish o op shape ws s = refExecute o op ws s := by
  rw [refFinish, h]

/-- Where every operand is a register, the loop of R124 finds the first word that names none. -/
theorem refBadRegister_registers (ws : List Word) :
    refBadRegister (List.replicate ws.length .registerRef) ws = firstBadWord ws := by
  induction ws with
  | nil => rfl
  | cons w ws ih =>
    rw [List.length_cons, List.replicate_succ, refBadRegister_registerRef, ih]
    cases h : isRegWord w <;> simp [firstBadWord, h]

/-- With no bad word, every word names a register (R95). -/
theorem exists_regWord_of_firstBadWord (ws : List Word) (h : firstBadWord ws = none) :
    ∀ w ∈ ws, ∃ d, w = regWord d := fun w hw =>
  (regWord_or_bad w).resolve_right fun hb => by simpa [hb] using List.find?_eq_none.mp h w hw

/-! ### The reference step, end by end -/

theorem refRsStep_of_error (s t : RsState) (hrun : s.running = true) (h : refRsBody s = .error t) : refRsStep s = t := by
  rw [refRsStep, if_pos hrun, h]

/-- No opcode cell (R121). -/
theorem refRsStep_opcode_out (s : RsState) (hrun : s.running = true) (hpc : 1024 ≤ s.pc.toNat) :
    refRsStep s = s.fetchFault 0 := by
  have hzero : s.advance 0 = s := by simp [RsState.advance]
  apply refRsStep_of_error s _ hrun
  rw [refRsBody, refFetchCell_out _ _ hpc, RsState.fetchFault, hzero]
  rfl

/-- An opcode cell with no entry in the table (R122). -/
theorem refRsStep_unknown (s : RsState) (hrun : s.running = true) (hpc : s.pc.toNat < 1024)
    (hshape : rsShape (s.mem.read s.pc.toNat) = none) :
    refRsStep s = s.unknownOpcode (s.mem.read s.pc.toNat) := by
  apply refRsStep_of_error s _ hrun
  rw [refRsBody, refFetchCell_in _ _ hpc]
  simp only [bind, Except.bind, hshape]
  rfl

/-- An operand cell past the end of memory (R123): the first missing cell is at 1024. -/
theorem refRsStep_operand_out (s : RsState) (shape : List OperandKind) (hrun : s.running = true)
    (hpc : s.pc.toNat < 1024) (hshape : rsShape (s.mem.read s.pc.toNat) = some shape)
    (hout : 1024 < s.pc.toNat + (shape.length + 1)) : refRsStep s = s.fetchFault (1024 - s.pc.toNat) := by
  have hs := toNat_succ_of_lt _ hpc
  have hend : (s.advance (1024 - s.pc.toNat)).pc = 1024 := by
    apply BitVec.eq_of_toNat_eq
    simp
    omega
  have hops := refFetchOperands_out s.pc shape { s with pc := s.pc + 1 } (by simp only [hs]; omega)
    (by simp only [hs]; omega)
  rw [RsState.advance_succ] at hops
  simp only [hs, show 1024 - (s.pc.toNat + 1) + 1 = 1024 - s.pc.toNat by omega] at hops
  apply refRsStep_of_error s _ hrun
  rw [refRsBody, refFetchCell_in _ _ hpc, RsState.fetchFault, hend]
  simp only [bind, Except.bind, hshape, hops]

/-- An instruction fetched whole (R123 to R125). -/
theorem refRsStep_fetched (s : RsState) (shape : List OperandKind) (hrun : s.running = true)
    (hpc : s.pc.toNat < 1024) (hshape : rsShape (s.mem.read s.pc.toNat) = some shape)
    (hin : s.pc.toNat + (shape.length + 1) ≤ 1024) :
    refRsStep s = refFinish s.pc (s.mem.read s.pc.toNat) shape (s.cellsFrom shape.length (s.pc + 1))
      (s.advance (shape.length + 1)) := by
  have hs := toNat_succ_of_lt _ hpc
  have hops := refFetchOperands_in s.pc shape { s with pc := s.pc + 1 } (by simp only [hs]; omega)
  rw [RsState.advance_succ, RsState.cellsFrom_congr s { s with pc := s.pc + 1 } rfl] at hops
  rw [refRsStep, if_pos hrun, refRsBody, refFetchCell_in _ _ hpc]
  simp only [bind, Except.bind, hshape, hops, refFinish]
  cases refBadRegister shape (s.cellsFrom shape.length (s.pc + 1)) <;> rfl

/-! ### Each instruction against the pseudocode's execution -/

/-- ADD, SUB and MUL (R142 to R144), for an opcode cell whose execution is the operation `f`. -/
theorem RsState.arith_eq_refFinish (f : Word → Word → Word) (op dst a b : Word) (s : RsState)
    (hop : ∀ d i k t, refExecute s.pc op [d, i, k] t = refSetReg d (f (refReg i t) (refReg k t)) t) :
    s.arith f dst a b = refFinish s.pc op [.registerRef, .registerRef, .registerRef] [dst, a, b] (s.advance 4) := by
  have hloop : refBadRegister [.registerRef, .registerRef, .registerRef] [dst, a, b] = firstBadWord [dst, a, b] :=
    refBadRegister_registers [dst, a, b]
  cases hbad : firstBadWord [dst, a, b] with
  | some w => rw [RsState.arith_bad f _ _ _ w s hbad, refFinish_bad _ _ w _ _ _ (hloop.trans hbad)]
  | none =>
    have hreg := exists_regWord_of_firstBadWord _ hbad
    obtain ⟨d, rfl⟩ := hreg dst (by simp)
    obtain ⟨i, rfl⟩ := hreg a (by simp)
    obtain ⟨k, rfl⟩ := hreg b (by simp)
    rw [refFinish_good _ _ _ _ _ (hloop.trans hbad), hop]
    simp [RsState.reg]

/-- An instruction whose only register operand is its first one: LDI and POP (R141, R163). -/
theorem RsState.withRegister_eq_refFinish (o op w : Word) (shape : List OperandKind) (ws : List Word) (s : RsState)
    (next : Fin Config.rsNReg → RsState) (hrest : refBadRegister shape ws = none)
    (hop : ∀ d, refExecute o op (regWord d :: ws) s = next d) :
    s.withRegister o w next = refFinish o op (.registerRef :: shape) (w :: ws) s := by
  have hloop := refBadRegister_registerRef w shape ws
  rcases s.withRegister_cases o w next with ⟨d, rfl, h⟩ | ⟨hb, h⟩ <;> rw [h]
  · rw [isRegWord_regWord, if_pos rfl, hrest] at hloop
    rw [refFinish_good _ _ _ _ _ hloop, hop]
  · rw [hb] at hloop
    rw [refFinish_bad _ _ w _ _ _ hloop]

/-- The push of R160 with `sp` in range, where its write is never past the end. -/
theorem RsState.push_eq_refPush (o v : Word) (s : RsState) (hsp : s.sp.toNat ≤ 1024) : s.push o v = refPush o v s := by
  rcases s.push_cases o v with ⟨h0, h⟩ | ⟨hlt, h⟩ | ⟨hgt, -⟩
  · rw [h, refPush, if_pos h0]
  · have h0 : s.sp ≠ 0 := by
      intro h0
      rw [h0] at hlt
      exact absurd hlt (by decide)
    rw [h, refPush, if_neg h0]
  · omega

/-- The pop of R161 into a checked register. -/
theorem refPop_regWord (o : Word) (d : Fin Config.rsNReg) (s : RsState) :
    refPop o (regWord d) s = (s.pop o).2.setReg d (s.pop o).1 := by
  unfold refPop RsState.pop
  split_ifs <;> rw [refSetReg_regWord]

/-- The shape table has no entry for an opcode cell with none of the numbers (R97). -/
theorem rsShape_unknown (op : Word) (h : op ∉ numberedOpcodes) : rsShape op = none := by
  simp only [numberedOpcodes, List.mem_cons, List.not_mem_nil, or_false, not_or] at h
  obtain ⟨h0, h1, h2, h3, h4, h5, h6, h7, h8, -, -⟩ := h
  simp only [rsShape, h0, h1, h2, h3, h4, h5, h6, h7, h8, if_false]

/-- An RS instruction is what the pseudocode makes of its cells: `UnknownOpcode` where the table has no entry (R122), else the end
of the pseudocode on its operands, as many as its shape says. -/
theorem exec_rs_eq_reference (i : Instr) (s : State) (op : Word) (ws : List Word) (hc : i.core = .rs)
    (hwf : i.wellFormed = true) (hsp : s.rs.sp.toNat ≤ 1024) (henc : encode i = op :: ws) :
    (rsShape op = none ∧ ws = [] ∧ exec i s = .next { s with rs := s.rs.unknownOpcode op }) ∨
    ∃ shape, rsShape op = some shape ∧ shape.length = ws.length ∧
      exec i s = .next { s with rs := refFinish s.rs.pc op shape ws (s.rs.advance (shape.length + 1)) } := by
  cases i <;> cases henc
  case sentinel | addi | j | unrecognised => cases hc
  case call | ret => exact .inl ⟨rfl, rfl, rfl⟩
  case unknown => exact .inl ⟨rsShape_unknown op ((wellFormed_unknown_iff op).mp hwf), rfl, rfl⟩
  case nop | hlt | jmp => exact .inr ⟨_, rfl, rfl, rfl⟩
  case push v =>
    exact .inr ⟨_, rfl, rfl, congrArg s.nextRs (RsState.push_eq_refPush _ _ _ hsp)⟩
  case ldi dst imm =>
    refine .inr ⟨_, rfl, rfl, ?_⟩
    exact congrArg s.nextRs (RsState.withRegister_eq_refFinish _ _ _ _ _ _ _ rfl fun d => refSetReg_regWord d imm _)
  case pop dst =>
    refine .inr ⟨_, rfl, rfl, ?_⟩
    exact congrArg s.nextRs (RsState.withRegister_eq_refFinish _ _ _ _ _ _ _ rfl fun d => refPop_regWord _ d _)
  case add dst a b =>
    refine .inr ⟨_, rfl, rfl, ?_⟩
    exact congrArg s.nextRs (RsState.arith_eq_refFinish _ _ _ _ _ _ fun d i k t => by rw [rsAdd_eq]; rfl)
  case sub dst a b =>
    refine .inr ⟨_, rfl, rfl, ?_⟩
    exact congrArg s.nextRs (RsState.arith_eq_refFinish _ _ _ _ _ _ fun d i k t => by rw [rsSub_eq]; rfl)
  case mul dst a b =>
    refine .inr ⟨_, rfl, rfl, ?_⟩
    exact congrArg s.nextRs (RsState.arith_eq_refFinish _ _ _ _ _ _ fun d i k t => by rw [rsMul_eq]; rfl)

/-! ### The cells fetched -/

/-- The cells of an instruction at the front of others start with its opcode cell. -/
theorem encode_eq_cons_of_append (i : Instr) (rest cells : List Word) (op : Word) (h : encode i ++ rest = op :: cells) :
    ∃ ws, encode i = op :: ws ∧ ws ++ rest = cells := by
  cases henc : encode i with
  | nil =>
    obtain ⟨hlen, hmin, -, -⟩ := cellCount i
    simp [henc] at hlen
    omega
  | cons op' ws =>
    rw [henc, List.cons_append, List.cons.injEq] at h
    exact ⟨ws, by rw [h.1], h.2⟩

/-- The decoder asks for the cells that the shape table counts (R90, R94): with three more cells after it the opcode cell decodes,
and that instruction's shape, which no state bears on, is its table entry. -/
theorem exists_shape_of_decode_error (op : Word) (cells : List Word) (e : DecodeError)
    (h : decodeRs (op :: cells) = .error e) :
    ∃ shape, rsShape op = some shape ∧ cells.length < shape.length ∧ shape.length ≤ 3 := by
  obtain ⟨n, hop⟩ := exists_rsReads op
  have hshort : ¬ n ≤ (op :: cells).length := fun hle => by
    obtain ⟨i, r, hok⟩ := (hop.succeeds_iff cells).mpr hle
    cases h.symm.trans hok
  obtain ⟨i, r, hd⟩ := (hop.succeeds_iff [0, 0, 0]).mpr hop.le_four
  obtain ⟨hwf, hcells, hlen⟩ := hop.reads _ r i hd
  obtain ⟨ws, henc, -⟩ := encode_eq_cons_of_append i r _ op hcells
  rw [henc] at hlen
  simp only [List.length_cons] at hshort hlen
  rcases exec_rs_eq_reference i State.reset op ws (decodeRs_core _ r i hd) hwf (by decide) henc with
    ⟨-, rfl, -⟩ | ⟨shape, hshape, hcount, -⟩
  · simp at hlen
    omega
  · have := hop.le_four
    exact ⟨shape, hshape, by omega, by omega⟩

/-- The first cells of a fetch are a fetch of so many. -/
theorem RsState.cellsFrom_of_prefix (s : RsState) (ws rest : List Word) (n : Nat) (a : Word)
    (h : s.cellsFrom n a = ws ++ rest) : s.cellsFrom ws.length a = ws := by
  induction ws generalizing n a with
  | nil => rfl
  | cons w ws ih =>
    cases n with
    | zero => cases h
    | succ n =>
      rcases Nat.lt_or_ge a.toNat 1024 with hin | hout
      · rw [RsState.cellsFrom_in s n a hin, List.cons_append, List.cons.injEq] at h
        rw [List.length_cons, RsState.cellsFrom_in s _ a hin, h.1, ih n (a + 1) h.2]
      · rw [RsState.cellsFrom_out s _ a hout] at h
        cases h

/-! ### The statement -/

/-- The RS step of a running core, by what stands at `pc`: no opcode cell, too few cells, or an instruction. -/
theorem step_rs_running_eq_reference (s : State) (hsel : s.sel = .rs) (hrun : s.rs.running = true)
    (hsp : s.rs.sp.toNat ≤ 1024) : step s = .next { s with rs := refRsStep s.rs } := by
  rcases Nat.lt_or_ge s.rs.pc.toNat 1024 with hpc | hpc
  · have hcells : s.rs.fetchCells = s.rs.mem.read s.rs.pc.toNat :: s.rs.cellsFrom 3 (s.rs.pc + 1) :=
      RsState.cellsFrom_in _ _ _ hpc
    have hcount := s.rs.length_cellsFrom 3 (s.rs.pc + 1) (by rw [toNat_succ_of_lt _ hpc]; omega)
    rw [toNat_succ_of_lt _ hpc] at hcount
    cases hd : decode .rs s.rs.fetchCells with
    | error e =>
      obtain ⟨shape, hshape, hlack, hmax⟩ := exists_shape_of_decode_error _ _ e (hcells ▸ hd)
      have hlen : s.rs.fetchCells.length = 1024 - s.rs.pc.toNat := by
        rw [hcells, List.length_cons]
        omega
      rw [step_rs_of_decode_error s e hsel hrun hd, refRsStep_operand_out _ shape hrun hpc hshape (by omega), hlen]
    | ok p =>
      obtain ⟨i, rest⟩ := p
      obtain ⟨hwf, hc, henc⟩ := encodeOfDecodeGivesCells .rs _ rest i hd
      obtain ⟨ws, hws, hrest⟩ := encode_eq_cons_of_append i rest _ _ (henc.trans hcells)
      rw [step_rs_of_decode_ok s i rest hsel hrun hd]
      rcases exec_rs_eq_reference i s _ ws hc hwf hsp hws with ⟨hshape, -, h⟩ | ⟨shape, hshape, hlen, h⟩ <;> rw [h]
      · rw [refRsStep_unknown _ hrun hpc hshape]
      · rw [refRsStep_fetched _ shape hrun hpc hshape, hlen, RsState.cellsFrom_of_prefix _ ws rest 3 _ hrest.symm]
        rw [← hrest, List.length_append] at hcount
        omega
  · have hcells : s.rs.fetchCells = [] := RsState.cellsFrom_out _ _ _ hpc
    rw [step_rs_of_decode_error s .noCell hsel hrun (by rw [hcells]; rfl), hcells, refRsStep_opcode_out _ hrun hpc]
    rfl

/-- Settles O11: the gate, then the running core's step against the pseudocode's. -/
theorem rsStepIsReferenceStep : Obligations.RsStepIsReferenceStep := by
  intro s hsel hsp
  have hstep : step s = .next { s with rs := refRsStep s.rs } := by
    cases hrun : s.rs.running with
    | true => exact step_rs_running_eq_reference s hsel hrun hsp
    | false =>
      rw [step_of_not_running s (by simpa [State.isRunning, hsel] using hrun)]
      simp [refRsStep, hrun]
  exact ⟨hstep, (stepReturns_of_step s _ hstep).trans (by simp [State.isRunning, hsel])⟩

end Sys2Proof.Machine

/-! # Proofs: move and arithmetic (41_rs_move_arith)

The two fetch faults are said once, for every instruction: a fetch too short for the decoder leaves data alone and reports the
first missing cell. The effects are said once per shape: a register check that fails (`registerFault_of_exec`), and the rule of
ADD, SUB and MUL for any exact integer operation (`arithRule_of_exec`). -/

namespace Sys2Proof.Machine

/-! ### Fetches past the end of memory -/

/-- The end of a step whose fetch found too few cells (R121, R123): `a` is the first missing address. -/
theorem step_rs_fetchFault (s : State) (e : DecodeError) (a : Word) (hsel : s.sel = .rs) (hrun : s.rs.running = true)
    (hd : decode .rs s.rs.fetchCells = .error e) (ha : s.rs.pc + BitVec.ofNat 32 s.rs.fetchCells.length = a) :
    ∃ t, step s = .next t ∧ s.SameOutsideRs t ∧ s.rs.SameData t.rs ∧ t.rs.pc = a ∧
      t.rs.Faulted .addressOutOfRange s.rs.pc a :=
  ⟨_, step_rs_of_decode_error s e hsel hrun hd, ⟨rfl, rfl⟩, ⟨rfl, rfl, Memory.sameCells_refl _⟩, ha,
    ⟨rfl, rfl, ha, rfl, rfl⟩⟩

/-- R121: past the end there is no opcode cell. -/
theorem opcodeFetchFaults : OpcodeFetchFaults := by
  intro s hsel hrun hpc
  have hcells : s.rs.fetchCells = [] := RsState.cellsFrom_out _ _ _ hpc
  exact step_rs_fetchFault s .noCell _ hsel hrun (by rw [hcells]; rfl) (by simp [hcells])

/-- With the opcode cell of an instruction and fewer cells than it has, the RS decoder reads nothing (R90). -/
theorem decode_rs_error_of_short (i : Instr) (op : Word) (ws cells : List Word) (hwf : i.wellFormed = true)
    (hc : i.core = .rs) (henc : encode i = op :: ws) (hshort : cells.length < ws.length) :
    ∃ e, decode .rs (op :: cells) = .error e := by
  obtain ⟨n, hop⟩ := exists_rsReads op
  have hown : decodeRs (op :: (ws ++ [])) = .ok (i, []) := by
    simpa [hc, henc, decode] using decodeOfEncodeGivesInstruction i [] hwf
  obtain ⟨-, -, hlen⟩ := hop.reads _ _ _ hown
  cases hd : decode .rs (op :: cells) with
  | error e => exact ⟨e, rfl⟩
  | ok p =>
    have hn := (hop.succeeds_iff cells).mp ⟨p.1, p.2, hd⟩
    rw [henc] at hlen
    simp only [List.length_cons] at hlen hn
    omega

/-- R123, for every RS instruction: memory ends before its last cell, so the first missing address is the capacity. -/
theorem operandFetchFaults (i : Instr) (hwf : i.wellFormed = true) (hc : i.core = .rs) : OperandFetchFaults i := by
  intro s hsel hrun hpc hout hop
  rw [Config.rsCap_eq] at hpc hout
  obtain ⟨ws, henc⟩ := List.head?_eq_some_iff.mp hop
  obtain ⟨hlen, -, hmax, -⟩ := cellCount i
  have hfour : ws.length + 1 ≤ 4 := by simpa [← hlen, henc, maxLength] using hmax
  rw [henc, List.length_cons] at hout
  have hcells : s.rs.fetchCells = s.rs.mem.read s.rs.pc.toNat :: s.rs.cellsFrom 3 (s.rs.pc + 1) :=
    RsState.cellsFrom_in _ _ _ hpc
  have hcount : s.rs.fetchCells.length = 1024 - s.rs.pc.toNat :=
    (RsState.length_cellsFrom _ _ _ hpc.le).trans (Nat.min_eq_right (by simp only [maxLength]; omega))
  have hshort : (s.rs.cellsFrom 3 (s.rs.pc + 1)).length < ws.length := by
    rw [hcells, List.length_cons] at hcount
    omega
  obtain ⟨e, hd⟩ := decode_rs_error_of_short i _ ws _ hwf hc henc hshort
  refine step_rs_fetchFault s e 1024 hsel hrun (hcells ▸ hd) (BitVec.eq_of_toNat_eq ?_)
  simp [hcount]
  omega

/-! ### The shapes of the effects -/

/-- A failed register check of an instruction of `n` cells (R124). -/
theorem registerFault_of_exec (i : Instr) (n : Nat) (w : Word) (s : State)
    (h : exec i s = s.nextRs ((s.rs.advance n).raise s.rs.pc .registerIndexOutOfRange w)) :
    RegisterFault i (BitVec.ofNat 32 n) w s :=
  ⟨_, h, ⟨rfl, rfl⟩, ⟨rfl, rfl, Memory.sameCells_refl _⟩, rfl, ⟨rfl, rfl, rfl, rfl, rfl⟩⟩

/-- R142 to R144 at once: an instruction of four cells whose effect is the wrapped `f` of the signed sources. -/
theorem arithRule_of_exec (mk : Word → Word → Word → Instr) (opcode : Word) (f : Int → Int → Int)
    (henc : ∀ dst a b, encode (mk dst a b) = [opcode, dst, a, b]) (hwf : ∀ dst a b, (mk dst a b).wellFormed = true)
    (hc : ∀ dst a b, (mk dst a b).core = .rs)
    (hexec : ∀ dst a b s, exec (mk dst a b) s =
      s.nextRs (s.rs.arith (fun va vb => wrap32 (f (s32 va) (s32 vb))) dst a b)) : ArithRule mk opcode f := by
  refine ⟨fun dst a b => ⟨henc dst a b, ?_, operandFetchFaults _ (hwf dst a b) (hc dst a b)⟩, opcodeFetchFaults,
    fun d a b s => ?_, fun dst a b w s hbad => ?_⟩
  · exact (encodedCellsRunAsTheirInstruction _ (hwf dst a b)).1 (hc dst a b)
  · have hgood := hexec (regWord d) (regWord a) (regWord b) s
    rw [RsState.arith_regWord] at hgood
    refine ⟨_, hgood, ⟨rfl, rfl⟩, ⟨rfl, rfl, rfl, rfl, rfl⟩, rfl, Memory.sameCells_refl _, rfl, ?_,
      fun k hk => RsState.reg_setReg_other d k _ _ hk⟩
    rw [RsState.reg_setReg_self]
    exact toNat_wrap32 _
  · exact registerFault_of_exec _ 4 w s (by rw [hexec, RsState.arith_bad _ _ _ _ w s.rs hbad])

/-! ### The statements -/

/-- Settles O16: the fetch rules, and the advance over its one cell. -/
theorem nopOnlyAdvancesPc : Obligations.NopOnlyAdvancesPc :=
  ⟨rfl, (encodedCellsRunAsTheirInstruction .nop rfl).1 rfl, opcodeFetchFaults, fun _ =>
    ⟨_, rfl, ⟨rfl, rfl⟩, ⟨rfl, rfl, rfl, rfl, rfl⟩, ⟨rfl, rfl, Memory.sameCells_refl _⟩, rfl⟩⟩

/-- Settles O17: the fetch rules, then the two ends of the check of `dst`. -/
theorem ldiWritesImmediate : Obligations.LdiWritesImmediate := by
  refine ⟨fun dst imm => ⟨rfl, (encodedCellsRunAsTheirInstruction (.ldi dst imm) rfl).1 rfl,
    operandFetchFaults (.ldi dst imm) rfl rfl⟩, opcodeFetchFaults, fun d imm s => ?_, fun dst imm s hbad => ?_⟩
  · have hgood : exec (.ldi (regWord d) imm) s = s.nextRs ((s.rs.advance 3).setReg d imm) :=
      congrArg s.nextRs (RsState.withRegister_regWord _ d _ _)
    exact ⟨_, hgood, ⟨rfl, rfl⟩, ⟨rfl, rfl, rfl, rfl, rfl⟩, rfl, Memory.sameCells_refl _, rfl,
      RsState.reg_setReg_self d imm _, fun k hk => RsState.reg_setReg_other d k imm _ hk⟩
  · exact registerFault_of_exec _ 3 dst s (congrArg s.nextRs (RsState.withRegister_bad _ dst _ _ hbad))

/-- Settles O18: ADD is the wrapped signed sum. -/
theorem addWritesWrappedSum : Obligations.AddWritesWrappedSum :=
  arithRule_of_exec .add 2 _ (fun _ _ _ => rfl) (fun _ _ _ => rfl) (fun _ _ _ => rfl) fun _ _ _ _ => rfl

/-- Settles O19: SUB is the wrapped signed difference, first source minus second. -/
theorem subWritesWrappedDifference : Obligations.SubWritesWrappedDifference :=
  arithRule_of_exec .sub 3 _ (fun _ _ _ => rfl) (fun _ _ _ => rfl) (fun _ _ _ => rfl) fun _ _ _ _ => rfl

/-- Settles O20: MUL is the wrapped signed product. -/
theorem mulWritesLowProduct : Obligations.MulWritesLowProduct :=
  arithRule_of_exec .mul 4 _ (fun _ _ _ => rfl) (fun _ _ _ => rfl) (fun _ _ _ => rfl) fun _ _ _ _ => rfl

end Sys2Proof.Machine

/-! # Proofs: control (42_rs_control)

No instruction makes control depend on a register (R152, R188): each shared operation takes two states that differ only in
registers to two such states, so each instruction does, and the fetch reads no register. HLT is the one normal halt of the RS
core; a jump out of memory is the effect of JMP followed by the next step's fetch fault. -/

namespace Sys2Proof.Machine

/-! ### RS states that differ only in registers -/

namespace RsState.SameButRegs

variable {s t : RsState} (h : s.SameButRegs t)
include h

theorem exists_eq : ∃ x, t = { s with x := x } := ⟨t.x, h.symm⟩

theorem advance (n : Nat) : (s.advance n).SameButRegs (t.advance n) := by
  obtain ⟨x, rfl⟩ := h.exists_eq
  rfl

theorem raise (o i : Word) (c : FaultCode) : (s.raise o c i).SameButRegs (t.raise o c i) := by
  obtain ⟨x, rfl⟩ := h.exists_eq
  rfl

theorem halt : s.halt.SameButRegs t.halt := by
  obtain ⟨x, rfl⟩ := h.exists_eq
  rfl

/-- The values written may differ: they only go to registers. -/
theorem setReg (d : Fin Config.rsNReg) (v w : Word) : (s.setReg d v).SameButRegs (t.setReg d w) := by
  obtain ⟨x, rfl⟩ := h.exists_eq
  rfl

theorem jump (target : Word) : { s with pc := target }.SameButRegs { t with pc := target } := by
  obtain ⟨x, rfl⟩ := h.exists_eq
  rfl

/-- The check of an operand word reads no register (R124). -/
theorem withRegister (o w : Word) (next next' : Fin Config.rsNReg → RsState)
    (hnext : ∀ d, (next d).SameButRegs (next' d)) :
    (s.withRegister o w next).SameButRegs (t.withRegister o w next') := by
  rcases regWord_or_bad w with ⟨d, rfl⟩ | hbad
  · simpa using hnext d
  · simpa [RsState.withRegister_bad _ _ _ _ hbad] using h.raise o w .registerIndexOutOfRange

theorem arith (op : Word → Word → Word) (dst a b : Word) : (s.arith op dst a b).SameButRegs (t.arith op dst a b) := by
  have hadv := h.advance 4
  obtain ⟨x, rfl⟩ := h.exists_eq
  exact hadv.withRegister _ dst _ _ fun d => hadv.withRegister _ a _ _ fun _ =>
    hadv.withRegister _ b _ _ fun _ => hadv.setReg d _ _

theorem push (o v : Word) : (s.push o v).SameButRegs (t.push o v) := by
  obtain ⟨x, rfl⟩ := h.exists_eq
  unfold RsState.push RsState.memWrite
  split_ifs <;> rfl

theorem pop (o : Word) : (s.pop o).2.SameButRegs (t.pop o).2 := by
  obtain ⟨x, rfl⟩ := h.exists_eq
  unfold RsState.pop
  split_ifs <;> rfl

theorem pc_eq : t.pc = s.pc := by rw [← h]

theorem running_eq : t.running = s.running := by rw [← h]

/-- The fetched cells come from memory and `pc` (R121, R123). -/
theorem fetchCells_eq : t.fetchCells = s.fetchCells := by
  rw [RsState.fetchCells, h.pc_eq]
  exact RsState.cellsFrom_congr s t (congrArg RsState.mem h).symm _ _

theorem fetchFault (n : Nat) : (s.fetchFault n).SameButRegs (t.fetchFault n) := by
  obtain ⟨x, rfl⟩ := h.exists_eq
  rfl

end RsState.SameButRegs

/-! ### LS states that differ only in registers -/

namespace LsState.SameButRegs

variable {s t : LsState} (h : s.SameButRegs t)
include h

theorem exists_eq : ∃ x, t = { s with x := x } := ⟨t.x, h.symm⟩

theorem advance : s.advance.SameButRegs t.advance := by
  obtain ⟨x, rfl⟩ := h.exists_eq
  rfl

theorem halt : s.halt.SameButRegs t.halt := by
  obtain ⟨x, rfl⟩ := h.exists_eq
  rfl

/-- The values written may differ: they only go to registers. -/
theorem setReg (r : BitVec 5) (v w : Word) : (s.setReg r v).SameButRegs (t.setReg r w) := by
  obtain ⟨x, rfl⟩ := h.exists_eq
  rfl

theorem jump (target : BitVec 26) :
    { s with pc := jumpTarget s.pc target }.SameButRegs { t with pc := jumpTarget t.pc target } := by
  obtain ⟨x, rfl⟩ := h.exists_eq
  rfl

theorem pc_eq : t.pc = s.pc := by rw [← h]

theorem running_eq : t.running = s.running := by rw [← h]

/-- The fetched word comes from memory and `pc` (R177). -/
theorem fetchWord_eq : t.fetchWord = s.fetchWord := by
  obtain ⟨x, rfl⟩ := h.exists_eq
  rfl

end LsState.SameButRegs

/-! ### Instructions, steps and runs from states that differ only in registers -/

/-- Both outcomes are next states, and those differ only in registers. -/
def NextSameButRegs (o o' : Host.Outcome State Fault Refusal) : Prop :=
  ∃ s t, o = .next s ∧ o' = .next t ∧ s.SameButRegs t

namespace State.SameButRegs

variable {s t : State} (h : s.SameButRegs t)
include h

theorem nextRs {a b : RsState} (hab : a.SameButRegs b) : NextSameButRegs (s.nextRs a) (t.nextRs b) :=
  ⟨_, _, rfl, rfl, h.sel, hab, h.ls⟩

theorem nextLs {a b : LsState} (hab : a.SameButRegs b) : NextSameButRegs (s.nextLs a) (t.nextLs b) :=
  ⟨_, _, rfl, rfl, h.sel, h.rs, hab⟩

/-- CALL, RET and the opcodes with no entry (R122, R170 to R172). -/
theorem unknownOpcode (op : Word) :
    NextSameButRegs (s.nextRs (s.rs.unknownOpcode op)) (t.nextRs (t.rs.unknownOpcode op)) := by
  unfold RsState.unknownOpcode
  rw [h.rs.pc_eq]
  exact h.nextRs ((h.rs.advance 1).raise _ _ _)

/-- Per instruction (R152, R188): register values go to registers only. -/
theorem exec (i : Instr) : NextSameButRegs (exec i s) (exec i t) := by
  have hpc := h.rs.pc_eq
  cases i with
  | nop => exact h.nextRs (h.rs.advance 1)
  | ldi dst imm =>
    have hadv := h.rs.advance 3
    simp only [Machine.exec, execLdi, hpc]
    exact h.nextRs (hadv.withRegister _ dst _ _ fun d => hadv.setReg d imm imm)
  | add dst a b => exact h.nextRs (h.rs.arith rsAdd dst a b)
  | sub dst a b => exact h.nextRs (h.rs.arith rsSub dst a b)
  | mul dst a b => exact h.nextRs (h.rs.arith rsMul dst a b)
  | jmp target => exact h.nextRs ((h.rs.advance 2).jump target)
  | hlt => exact h.nextRs (h.rs.advance 1).halt
  | push v =>
    simp only [Machine.exec, execPush, hpc]
    exact h.nextRs ((h.rs.advance 2).push _ v)
  | pop dst =>
    have hadv := h.rs.advance 2
    simp only [Machine.exec, execPop, hpc]
    exact h.nextRs (hadv.withRegister _ dst _ _ fun d => (hadv.pop _).setReg d _ _)
  | call => exact h.unknownOpcode opcCall
  | ret => exact h.unknownOpcode opcRet
  | unknown op => exact h.unknownOpcode op
  | sentinel => exact h.nextLs h.ls.advance.halt
  | addi src dst imm => exact h.nextLs (h.ls.advance.setReg dst _ _)
  | j target => exact h.nextLs (h.ls.advance.jump target)
  | unrecognised w => exact h.nextLs h.ls.advance

theorem isRunning_eq : t.isRunning = s.isRunning := by
  simp only [State.isRunning, ← h.sel, h.rs.running_eq, h.ls.running_eq]

/-- The gate, the fetch and the decoder read no register, so both states run the same instruction or end the same way. -/
theorem step : NextSameButRegs (step s) (step t) := by
  rcases step_cases s with ⟨hrun, hs⟩ | ⟨hsel, hrun, ⟨e, hd⟩, hs⟩ | ⟨i, rest, hsel, hrun, hd, hs⟩ |
    ⟨hsel, hrun, hpc, hs⟩ | ⟨hsel, hrun, hpc, hs⟩ <;> rw [hs]
  · exact ⟨s, t, rfl, step_of_not_running t (h.isRunning_eq.trans hrun), h⟩
  · rw [step_rs_of_decode_error t e (h.sel ▸ hsel) (h.rs.running_eq.trans hrun) (h.rs.fetchCells_eq ▸ hd),
      h.rs.fetchCells_eq]
    exact h.nextRs (h.rs.fetchFault _)
  · rw [step_rs_of_decode_ok t i rest (h.sel ▸ hsel) (h.rs.running_eq.trans hrun) (h.rs.fetchCells_eq ▸ hd)]
    exact h.exec i
  · rw [step_ls_past_end t (h.sel ▸ hsel) (h.ls.running_eq.trans hrun) (h.ls.pc_eq ▸ hpc)]
    exact h.nextLs h.ls.halt
  · rw [step_ls_in_memory t (h.sel ▸ hsel) (h.ls.running_eq.trans hrun) (h.ls.pc_eq ▸ hpc), h.ls.fetchWord_eq]
    exact h.exec _

theorem stepped : s.stepped.SameButRegs t.stepped := by
  obtain ⟨s', t', hs, ht, h'⟩ := h.step
  rwa [← Host.Outcome.next.inj ((step_eq_stepped s).symm.trans hs),
    ← Host.Outcome.next.inj ((step_eq_stepped t).symm.trans ht)] at h'

end State.SameButRegs

/-- Settles O56, by induction on the number of steps. -/
theorem pathDoesNotDependOnRegisters : Obligations.PathDoesNotDependOnRegisters := by
  intro n s t h
  induction n with
  | zero => exact h
  | succ n ih =>
    rw [State.run_succ, State.run_succ]
    exact ih.stepped

/-! ### JMP and HLT -/

/-- Settles O21: the fetch rules, and the target over the advanced `pc`. -/
theorem jmpWritesPc : Obligations.JmpWritesPc :=
  ⟨fun target => ⟨rfl, (encodedCellsRunAsTheirInstruction (.jmp target) rfl).1 rfl,
    operandFetchFaults (.jmp target) rfl rfl⟩, opcodeFetchFaults, fun _ _ =>
    ⟨_, rfl, ⟨rfl, rfl⟩, ⟨rfl, rfl, rfl, rfl, rfl⟩, ⟨rfl, rfl, Memory.sameCells_refl _⟩, rfl⟩⟩

/-- Settles O22: the step is the JMP, which leaves the core running with `pc` past memory, where the opcode fetch faults. -/
theorem jumpOutOfMemoryFaultsAtNextFetch : Obligations.JumpOutOfMemoryFaultsAtNextFetch := by
  intro s target hsel hrun hcap hholds hout
  obtain ⟨hjmp, -, hexec⟩ := jmpWritesPc
  obtain ⟨-, hruns, -⟩ := hjmp target
  obtain ⟨t, ht, houtside, hctl, hdata, hpc⟩ := hexec target s
  have hrunT : t.rs.running = true := hctl.running.trans hrun
  obtain ⟨u, hu, -, hdataU, hpcU, hfault⟩ := opcodeFetchFaults t (houtside.sel.trans hsel) hrunT (hpc ▸ hout)
  rw [hpc] at hpcU hfault
  exact ⟨t, u, (hruns s hsel hrun hcap hholds).trans ht, hrunT, hpc, hctl, hdata, hu, hfault, hpcU,
    hdataU.x.trans hdata.x, hdataU.sp.trans hdata.sp, fun a => (hdataU.mem a).trans (hdata.mem a)⟩

/-- Settles O23: the fetch rules, and the halt after the advance over its one cell. -/
theorem hltStopsWithoutFault : Obligations.HltStopsWithoutFault :=
  ⟨rfl, (encodedCellsRunAsTheirInstruction .hlt rfl).1 rfl, opcodeFetchFaults, fun _ =>
    ⟨_, rfl, ⟨rfl, rfl⟩, ⟨rfl, rfl, Memory.sameCells_refl _⟩, rfl, rfl, rfl, rfl⟩⟩

/-- A stopped RS core whose record stayed empty has executed HLT (R151, R152): every other end keeps it running or commits a
fault. -/
theorem eq_hlt_of_exec_rs_stops (i : Instr) (s t : State) (hc : i.core = .rs) (hrun : s.rs.running = true)
    (h : exec i s = .next t) (hstop : t.rs.running = false) (hnone : t.rs.faultCode = .none) : i = .hlt := by
  rcases exec_rs_cases i s t hc h with ⟨d, v, -, -, ht⟩ | ⟨w, -, ht⟩ | ⟨v, -, ht⟩ | ⟨d, -, ht⟩ | ⟨w, -, ht⟩ | ⟨hi, -⟩ |
    ⟨-, ht⟩ | ⟨w, -, -, -, ht⟩
  · simp [ht, hrun] at hstop
  · simp [ht] at hnone
  · rcases RsState.push_cases s.rs.pc v (s.rs.advance 2) with ⟨-, hp⟩ | ⟨-, hp⟩ | ⟨-, hp⟩
    · simp [ht, hp] at hnone
    · simp [ht, hp, hrun] at hstop
    · simp [ht, hp] at hnone
  · rcases RsState.pop_cases s.rs.pc (s.rs.advance 2) with ⟨-, hp⟩ | ⟨-, hp⟩
    · simp [ht, hp, hrun] at hstop
    · simp [ht, hp] at hnone
  · simp [ht, hrun] at hstop
  · exact hi
  · simp [ht, hrun] at hstop
  · simp [ht] at hnone

/-- Settles O31: an RS instruction by its ends, an LS instruction because it leaves the RS core alone. -/
theorem onlyHltStopsWithoutFault : Obligations.OnlyHltStopsWithoutFault := by
  intro i s t hrun hnone h
  cases hc : i.core with
  | ls =>
    obtain ⟨-, hrs⟩ := exec_ls_outside i s t hc h
    have hi : i ≠ .hlt := by
      rintro rfl
      cases hc
    simp [hrs, hrun, hnone, hi]
  | rs =>
    refine ⟨fun hstop => ?_, ?_⟩
    · exact or_iff_not_imp_right.mpr fun hf =>
        eq_hlt_of_exec_rs_stops i s t hc hrun h hstop (not_not.mp hf)
    · rintro (rfl | hf)
      · cases h
        rfl
      · cases exec_rs_controlAfter i s t hc h with
        | kept same => exact absurd (same.faultCode.trans hnone) hf
        | halted running _ _ => exact running
        | faulted _ _ _ commit => exact commit.running

end Sys2Proof.Machine

/-! # Proofs: the stack (43_rs_stack)

PUSH and POP are the stack helpers after the advance over two cells, each with its two ends. The stack law (R164) follows from
their statements alone: what a run of pushes leaves (`RsState.AfterPushes`) and what a run of pops leaves (`RsState.AfterPops`),
each by induction, one run after the other. -/

namespace Sys2Proof.Machine

/-! ### PUSH and POP -/

/-- Settles O24: the fetch rules, then the two ends of the push. -/
theorem pushStoresLiteralBelowSp : Obligations.PushStoresLiteralBelowSp := by
  refine ⟨fun v => ⟨rfl, runsWhenFetched_push v, operandFetchFaults (.push v) rfl rfl⟩, opcodeFetchFaults,
    fun v s h1 h2 => ?_, fun v s h0 => ?_⟩
  · exact ⟨_, execPush_room v s h1 h2, ⟨rfl, rfl⟩, ⟨rfl, rfl, rfl, rfl, rfl⟩, rfl, rfl, rfl,
      Memory.read_write_self _ _ _, fun a ha => Memory.read_write_other _ _ a _ ha⟩
  · have hfull : exec (.push v) s = s.nextRs ((s.rs.advance 2).raise s.rs.pc .stackOverflow opcPush) :=
      congrArg s.nextRs (RsState.push_full _ v (s.rs.advance 2) h0)
    exact ⟨_, hfull, ⟨rfl, rfl⟩, ⟨rfl, rfl, Memory.sameCells_refl _⟩, rfl, ⟨rfl, rfl, rfl, rfl, rfl⟩⟩

/-- A POP whose operand names a register is the pop, whatever its end, and then the write of what it hands back (R163). -/
theorem exec_pop_regWord (d : Fin Config.rsNReg) (s : State) :
    exec (.pop (regWord d)) s =
      s.nextRs (((s.rs.advance 2).pop s.rs.pc).2.setReg d ((s.rs.advance 2).pop s.rs.pc).1) :=
  congrArg s.nextRs (RsState.withRegister_regWord _ d _ _)

theorem toInt_popSentinel : popSentinel.toInt = -1 := by decide

/-- Settles O25: the fetch rules, the two ends of the pop, and the failed check of `dst`. -/
theorem popLoadsTopOfStack : Obligations.PopLoadsTopOfStack := by
  refine ⟨fun dst => ⟨rfl, (encodedCellsRunAsTheirInstruction (.pop dst) rfl).1 rfl,
    operandFetchFaults (.pop dst) rfl rfl⟩, opcodeFetchFaults, fun d s hsp => ?_, fun d s hsp => ?_, fun dst s hbad => ?_⟩
  · have hpop := exec_pop_regWord d s
    rw [RsState.pop_some _ (s.rs.advance 2) hsp] at hpop
    exact ⟨_, hpop, ⟨rfl, rfl⟩, ⟨rfl, rfl, rfl, rfl, rfl⟩, Memory.sameCells_refl _, rfl, rfl,
      RsState.reg_setReg_self d _ _, fun k hk => RsState.reg_setReg_other d k _ _ hk⟩
  · have hpop := exec_pop_regWord d s
    rw [RsState.pop_empty _ (s.rs.advance 2) hsp] at hpop
    refine ⟨_, hpop, ⟨rfl, rfl⟩, Memory.sameCells_refl _, rfl, rfl, ⟨rfl, rfl, rfl, rfl, rfl⟩, ?_,
      fun k hk => RsState.reg_setReg_other d k _ _ hk⟩
    rw [RsState.reg_setReg_self]
    exact toInt_popSentinel
  · exact registerFault_of_exec _ 2 dst s (congrArg s.nextRs (RsState.withRegister_bad _ dst _ _ hbad))

/-! ### Runs of instructions -/

/-- A run of instructions is a run of its first part, and of the rest from there. -/
theorem execAll_append (is js : List Instr) (s t : State) (h : execAll is s = .next t) :
    execAll (is ++ js) s = execAll js t := by
  induction is generalizing s with
  | nil =>
    cases h
    rfl
  | cons i is ih =>
    rw [List.cons_append, execAll]
    rw [execAll] at h
    cases hi : exec i s with
    | next u =>
      rw [hi] at h
      exact ih u h
    | fault f => simp [hi] at h
    | refused r => simp [hi] at h

theorem execAll_singleton (i : Instr) (s t : State) (h : exec i s = .next t) : execAll [i] s = .next t := by
  simp [execAll, h]

theorem RsState.SameControl.trans {s t u : RsState} (h : s.SameControl t) (h' : t.SameControl u) : s.SameControl u :=
  ⟨h'.running.trans h.running, h'.runState.trans h.runState, h'.faultCode.trans h.faultCode,
    h'.faultPc.trans h.faultPc, h'.faultInfo.trans h.faultInfo⟩

/-! ### The stack law -/

/-- What pushing `values` in order, with room for them, makes of an RS core (R160, R162). -/
structure RsState.AfterPushes (values : List Word) (s t : RsState) : Prop where
  sp : t.sp.toNat = s.sp.toNat - values.length
  control : s.SameControl t
  pushed : ∀ k, k < values.length → t.mem.read (s.sp.toNat - 1 - k) = values.getD k 0
  outside : ∀ a, a < s.sp.toNat - values.length ∨ s.sp.toNat ≤ a → t.mem.read a = s.mem.read a

/-- What popping into `dsts` in order, with that many values on the stack, makes of an RS core (R161, R163). -/
structure RsState.AfterPops (dsts : List (Fin Config.rsNReg)) (s t : RsState) : Prop where
  sp : t.sp.toNat = s.sp.toNat + dsts.length
  control : s.SameControl t
  cells : s.mem.SameCells t.mem
  last : ∀ d, dsts.getLast? = some d → t.reg d = s.mem.read (s.sp.toNat + dsts.length - 1)

/-- By induction from the first push: its cell lies above those of the pushes after it, which leave it alone. -/
theorem execAll_push (values : List Word) (s : State) (hroom : values.length ≤ s.rs.sp.toNat)
    (hsp : s.rs.sp.toNat ≤ 1024) :
    ∃ t, execAll (values.map .push) s = .next t ∧ s.rs.AfterPushes values t.rs := by
  induction values generalizing s with
  | nil => exact ⟨s, rfl, rfl, ⟨rfl, rfl, rfl, rfl, rfl⟩, nofun, fun _ _ => rfl⟩
  | cons v vs ih =>
    rw [List.length_cons] at hroom
    obtain ⟨-, -, hpush, -⟩ := pushStoresLiteralBelowSp
    obtain ⟨t, ht, -, hctl, -, -, htsp, hself, hother⟩ := hpush v s (by omega) hsp
    have htop : (s.rs.sp - 1).toNat = s.rs.sp.toNat - 1 := by bv_omega
    rw [htop] at hself hother
    rw [← htsp] at htop
    obtain ⟨u, hu, after⟩ := ih t (by omega) (by omega)
    refine ⟨u, (execAll_append [.push v] _ s t (execAll_singleton _ s t ht)).trans hu, ?_, hctl.trans after.control,
      fun k hk => ?_, fun a ha => ?_⟩
    · rw [after.sp, List.length_cons]
      omega
    · cases k with
      | zero => exact (after.outside _ (.inr htop.le)).trans hself
      | succ k =>
        rw [List.getD_cons_succ, ← after.pushed k (by simpa using hk), htop]
        congr 1
        omega
    · rw [List.length_cons] at ha
      rw [after.outside a (by omega), hother a (by omega)]

/-- By induction from the last pop, the one whose register is spoken of. -/
theorem execAll_pop (dsts : List (Fin Config.rsNReg)) (s : State) (hsp : s.rs.sp.toNat + dsts.length ≤ 1024) :
    ∃ t, execAll (dsts.map fun d => .pop (regWord d)) s = .next t ∧ s.rs.AfterPops dsts t.rs := by
  induction dsts using List.reverseRecOn with
  | nil => exact ⟨s, rfl, rfl, ⟨rfl, rfl, rfl, rfl, rfl⟩, Memory.sameCells_refl _, nofun⟩
  | append_singleton ds d ih =>
    rw [List.length_append, List.length_singleton] at hsp
    obtain ⟨t, ht, after⟩ := ih (by omega)
    obtain ⟨-, -, hpop, -⟩ := popLoadsTopOfStack
    have htsp : t.rs.sp.toNat < 1024 := by
      rw [after.sp]
      omega
    obtain ⟨u, hu, -, hctl, hcells, -, husp, hreg, -⟩ := hpop d t htsp
    refine ⟨u, ?_, ?_, after.control.trans hctl, fun a => (hcells a).trans (after.cells a), fun d' hd => ?_⟩
    · rw [List.map_append, execAll_append _ _ s t ht]
      exact execAll_singleton _ t u hu
    · rw [husp, toNat_succ_of_lt _ htsp, after.sp, List.length_append, List.length_singleton, Nat.add_assoc]
    · obtain rfl : d = d' := by simpa using hd
      rw [hreg, after.cells, after.sp, List.length_append, List.length_singleton, ← Nat.add_assoc, Nat.add_sub_cancel]

/-- Settles O55: the pops read back the cells the pushes wrote. -/
theorem popsReturnPushesInReverse : Obligations.PopsReturnPushesInReverse := by
  intro values dsts s hroom hsp hle
  obtain ⟨t, ht, pushes⟩ := execAll_push values s hroom hsp
  have htsp := pushes.sp
  obtain ⟨u, hu, pops⟩ := execAll_pop dsts t (by omega)
  refine ⟨u, (execAll_append _ _ s t ht).trans hu, by rw [pops.sp, htsp], pushes.control.trans pops.control,
    fun d hd => ?_, fun k hk => (pops.cells _).trans (pushes.pushed k hk),
    fun a ha => (pops.cells a).trans (pushes.outside a ha)⟩
  have hpos : 0 < dsts.length := List.length_pos_of_mem (List.mem_of_getLast? hd)
  rw [pops.last d hd, ← pushes.pushed _ (by omega), htsp]
  congr 1
  omega

end Sys2Proof.Machine

/-! # Proofs: the reserved and unknown opcodes (44_rs_reserved)

CALL, RET and every opcode cell without a number are one rule: `UnknownOpcode` committed after the advance over the opcode cell. -/

namespace Sys2Proof.Machine

/-- R170 to R172 at once: an instruction of one cell whose effect is the `UnknownOpcode` fault. -/
theorem unknownOpcodeRule_of_exec (i : Instr) (op : Word) (henc : encode i = [op]) (hwf : i.wellFormed = true)
    (hc : i.core = .rs) (hexec : ∀ s, exec i s = s.nextRs (s.rs.unknownOpcode op)) : UnknownOpcodeRule i op :=
  ⟨henc, (encodedCellsRunAsTheirInstruction i hwf).1 hc, opcodeFetchFaults, fun s =>
    ⟨_, hexec s, ⟨rfl, rfl⟩, ⟨rfl, rfl, Memory.sameCells_refl _⟩, rfl, ⟨rfl, rfl, rfl, rfl, rfl⟩⟩⟩

/-- The opcode numbers of R93 are 0 to 10, read as signed. -/
theorem toInt_of_mem_numberedOpcodes : ∀ op ∈ numberedOpcodes, 0 ≤ op.toInt ∧ op.toInt < 11 := by
  simp [numberedOpcodes, opcNop, opcLdi, opcAdd, opcSub, opcMul, opcJmp, opcHlt, opcPush, opcPop, opcCall, opcRet]

/-- Settles O26: CALL's meaning is the fault with its own number. -/
theorem callTakesUnknownOpcode : Obligations.CallTakesUnknownOpcode :=
  unknownOpcodeRule_of_exec .call 9 rfl rfl rfl fun _ => rfl

/-- Settles O27: RET's meaning is the fault with its own number. -/
theorem retTakesUnknownOpcode : Obligations.RetTakesUnknownOpcode :=
  unknownOpcodeRule_of_exec .ret 10 rfl rfl rfl fun _ => rfl

/-- Settles O28: a cell outside 0 to 10 is none of the numbered opcodes, so it decodes to the unknown opcode it holds. -/
theorem otherOpcodesTakeUnknownOpcode : Obligations.OtherOpcodesTakeUnknownOpcode := by
  intro op hout
  have hnot : op ∉ numberedOpcodes := fun hmem => by
    obtain ⟨hlow, hhigh⟩ := toInt_of_mem_numberedOpcodes op hmem
    omega
  exact unknownOpcodeRule_of_exec (.unknown op) op rfl ((wellFormed_unknown_iff op).mpr hnot) rfl fun _ => rfl

end Sys2Proof.Machine

/-! # Proofs: the LS core (45_ls_core)

The reference step of R183 ends at the gate, at a `pc` past memory, or in one of four kinds of word, told apart by the opcode
field. The decoder tells the same kinds apart, so each end is compared with the meaning of one instruction. A jump target is the
top four bits of the advanced `pc` and four times the field below them (R181). -/

namespace Sys2Proof.Machine

/-! ### The reference step's registers and its ends outside memory -/

/-- A write by register number, as the pseudocode spells it, is a write by register field (R103). -/
theorem LsState.setReg_eq_setIfInBounds (r : BitVec 5) (v : Word) (s : LsState) :
    s.setReg r v = { s with x := s.x.setIfInBounds r.toNat v } := by
  unfold LsState.setReg
  congr 1
  apply Vector.ext
  intro i hi
  simp [Vector.getElem_setIfInBounds, Vector.getElem_set, lsRegIndex]

/-- A read by register number, as the pseudocode spells it, is a read by register field (R103). -/
theorem LsState.reg_eq_getD (r : BitVec 5) (s : LsState) : s.reg r = s.x.toList.getD r.toNat 0 := by
  rw [LsState.reg, List.getD_eq_getElem?_getD, List.getElem?_eq_getElem (by rw [Vector.length_toList]; exact r.isLt)]
  simp [Vector.get_eq_getElem, lsRegIndex]

theorem refLsStep_stopped (s : LsState) (hrun : s.running = false) : refLsStep s = s := if_pos hrun

theorem refLsStep_past_end (s : LsState) (hrun : s.running = true) (hpc : 16384 ≤ s.pc.toNat) :
    refLsStep s = s.halt := by
  simp [refLsStep, hrun, hpc, LsState.halt]

/-! ### The step and the reference step -/

/-- The fetched word's instruction does what the pseudocode does with the word, by the kind of word (R106, R183). -/
theorem exec_decodeLs_eq_reference (s : State) (hrun : s.ls.running = true) (hpc : s.ls.pc.toNat < 16384) :
    exec (decodeLs s.ls.fetchWord) s = s.nextLs (refLsStep s.ls) := by
  rw [refLsStep, if_neg (by simp [hrun]), if_neg (by omega), ← LsState.fetchWord_eq]
  dsimp only
  by_cases h0 : s.ls.fetchWord = 0
  · rw [if_pos h0, h0]
    rfl
  rw [if_neg h0]
  by_cases h8 : s.ls.fetchWord.extractLsb' 26 6 = 0b001000
  · rw [if_pos h8, decodeLs_addi _ h8, exec, execAddi, lsAdd_eq, LsState.setReg_eq_setIfInBounds, LsState.reg_eq_getD]
    rfl
  rw [if_neg h8]
  by_cases h3 : s.ls.fetchWord.extractLsb' 26 6 = 0b000011
  · rw [if_pos h3, decodeLs_j _ h3, exec, execJ, jumpTarget_eq]
    rfl
  rw [if_neg h3, decodeLs_unrecognised _ h0 h8 h3]
  rfl

/-- Settles O12: the gate, the end of memory, then the fetched word. -/
theorem lsStepIsReferenceStep : Obligations.LsStepIsReferenceStep := by
  intro s hsel
  have hstep : step s = s.nextLs (refLsStep s.ls) := by
    cases hrun : s.ls.running with
    | false =>
      rw [step_of_not_running s (by simpa [State.isRunning, hsel] using hrun), refLsStep_stopped _ hrun]
      rfl
    | true =>
      rcases Nat.lt_or_ge s.ls.pc.toNat 16384 with hpc | hpc
      · rw [step_ls_in_memory s hsel hrun hpc, exec_decodeLs_eq_reference s hrun hpc]
      · rw [step_ls_past_end s hsel hrun hpc, refLsStep_past_end _ hrun hpc]
        rfl
  exact ⟨hstep, (stepReturns_of_step s _ hstep).trans (by simp [State.isRunning, hsel])⟩

/-! ### The end of memory -/

/-- Settles O37: the step is the halt with nothing fetched. -/
theorem lsPastEndStops : Obligations.LsPastEndStops := by
  intro s hsel hrun hpc
  have hstep := step_ls_past_end s hsel hrun hpc
  exact ⟨(stepReturns_of_step s _ hstep).trans (by simp [State.isRunning, hsel]),
    _, hstep, ⟨rfl, rfl⟩, rfl, rfl, rfl, rfl, rfl⟩

/-! ### The jump target -/

/-- A jump keeps the four bits above the target (R181). -/
theorem jumpTarget_segment (p : Word) (target : BitVec 26) :
    (jumpTarget p target).extractLsb' 28 4 = p.extractLsb' 28 4 := by
  rw [jumpTarget_eq]
  exact BitVec.extractLsb'_append_eq_left

/-- In the lowest segment of the address space a jump goes to four times its target (R181). -/
theorem toNat_jumpTarget_of_lt (p : Word) (target : BitVec 26) (hp : p.toNat < 2 ^ 28) :
    (jumpTarget p target).toNat = 4 * target.toNat := by
  have hoff := jumpTarget_offset p target
  have hseg := congrArg BitVec.toNat (jumpTarget_segment p target)
  simp only [BitVec.extractLsb'_toNat, Nat.shiftRight_eq_div_pow] at hseg
  omega

/-! ### The instructions -/

/-- A well-formed LS instruction runs when its word is fetched (R177, R179). -/
theorem lsRunsWhenFetched (i : Instr) (hwf : i.wellFormed = true) (hc : i.core = .ls) : LsRunsWhenFetched i :=
  (encodedCellsRunAsTheirInstruction i hwf).2 hc

/-- Settles O33: the fields of its word, and the write of the wrapped sum. -/
theorem addiWritesWrappedSum : Obligations.AddiWritesWrappedSum := by
  refine ⟨fun src dst imm => ⟨lsRunsWhenFetched _ rfl rfl, _, encode_addi src dst imm, addiWord_opcode _ _ _,
    addiWord_src _ _ _, addiWord_dst _ _ _, addiWord_imm _ _ _⟩, fun src dst imm s => ?_⟩
  refine ⟨_, rfl, ⟨rfl, rfl⟩, rfl, rfl, Memory.sameCells_refl _, rfl, ?_,
    fun r hr => LsState.reg_setReg_other dst r _ _ hr⟩
  rw [LsState.reg_setReg_self, lsAdd_eq]
  exact BitVec.toNat_add _ _

/-- Settles O34: the fields of its word, and the jump target's two parts; inside memory the advanced `pc` is in the lowest
segment. -/
theorem jumpKeepsSegmentAndTakesTarget : Obligations.JumpKeepsSegmentAndTakesTarget := by
  refine ⟨fun target => ⟨lsRunsWhenFetched _ rfl rfl, _, encode_j target, jumpWord_opcode _, jumpWord_target _⟩,
    fun target s => ?_⟩
  exact ⟨_, rfl, ⟨rfl, rfl⟩, rfl, rfl, Memory.sameCells_refl _, rfl, rfl, jumpTarget_segment _ _, jumpTarget_offset _ _,
    fun hpc => toNat_jumpTarget_of_lt _ _ (by rw [LsState.advance_pc]; bv_omega)⟩

/-- Settles O35: the fetch rule, and the halt after the advance. -/
theorem zeroWordEndsRun : Obligations.ZeroWordEndsRun :=
  ⟨rfl, lsRunsWhenFetched _ rfl rfl, fun _ =>
    ⟨_, rfl, ⟨rfl, rfl⟩, rfl, rfl, rfl, Memory.sameCells_refl _, rfl⟩⟩

/-- Settles O36: a word with neither opcode field is a well-formed unrecognised word, and its meaning is the advance. -/
theorem unrecognisedWordIsPassedOver : Obligations.UnrecognisedWordIsPassedOver :=
  ⟨fun w h0 h8 h3 => ⟨lsRunsWhenFetched _ ((wellFormed_unrecognised_iff w).mpr ⟨h0, h8, h3⟩) rfl, rfl⟩, fun _ _ =>
    ⟨_, rfl, ⟨rfl, rfl⟩, rfl, rfl, rfl, Memory.sameCells_refl _, rfl⟩⟩

end Sys2Proof.Machine

/-! # Proofs: the exceptions (60_exceptions)

A fault is a next state with its record (R209), so `exec` and `step` always answer one. `AddressOutOfRange` is the fetch's fault
alone: no effect of an instruction commits it while `sp` is in range (R204). A run ends normally exactly with an empty record,
which on the RS core is a HLT executed and on the LS core every end (R206, R207, R237). -/

namespace Sys2Proof.Machine

/-! ### Every instruction and every step answers a next state -/

/-- Settles O13: each core's instructions make a new state of their own core (R209), and the step has its next state. -/
theorem everyStepAnswersNext : Obligations.EveryStepAnswersNext := by
  refine ⟨fun i s => ?_, fun s => ⟨_, step_eq_stepped s⟩⟩
  cases hc : i.core with
  | rs =>
    obtain ⟨r, hr⟩ := exec_rs i s hc
    exact ⟨_, hr⟩
  | ls =>
    obtain ⟨l, hl⟩ := exec_ls i s hc
    exact ⟨_, hl⟩

/-! ### Where `AddressOutOfRange` comes from -/

/-- With `sp` in range, the cell below it is in memory, so the checked write of a push finds its cell (R63, R160). -/
theorem RsState.push_faultCode_ne_addressOutOfRange (o v : Word) (s : RsState) (hsp : s.sp.toNat ≤ 1024)
    (hs : s.faultCode ≠ .addressOutOfRange) : (s.push o v).faultCode ≠ .addressOutOfRange := by
  rcases s.push_cases o v with ⟨-, hp⟩ | ⟨-, hp⟩ | ⟨hgt, -⟩
  · simp [hp]
  · simpa [hp] using hs
  · exact absurd hsp (Nat.not_le.mpr hgt)

/-- The stack's read is tested as an underflow, not as an address (R161). -/
theorem RsState.pop_faultCode_ne_addressOutOfRange (o : Word) (s : RsState) (hs : s.faultCode ≠ .addressOutOfRange) :
    (s.pop o).2.faultCode ≠ .addressOutOfRange := by
  rcases s.pop_cases o with ⟨-, hp⟩ | ⟨-, hp⟩
  · simpa [hp] using hs
  · simp [hp]

/-- Only a push reaches an address check after the fetch, and with `sp` in range that check passes (R204). -/
theorem exec_rs_faultCode_ne_addressOutOfRange (i : Instr) (s t : State) (hc : i.core = .rs)
    (hsp : s.rs.sp.toNat ≤ 1024) (h : exec i s = .next t) (hs : s.rs.faultCode ≠ .addressOutOfRange) :
    t.rs.faultCode ≠ .addressOutOfRange := by
  rcases exec_rs_cases i s t hc h with ⟨d, v, -, -, ht⟩ | ⟨w, -, ht⟩ | ⟨v, -, ht⟩ | ⟨d, -, ht⟩ | ⟨w, -, ht⟩ | ⟨-, ht⟩ |
    ⟨-, ht⟩ | ⟨w, -, -, -, ht⟩ <;> rw [ht]
  case inr.inl => exact nofun
  case inr.inr.inl => exact RsState.push_faultCode_ne_addressOutOfRange _ v (s.rs.advance 2) hsp hs
  case inr.inr.inr.inl => exact RsState.pop_faultCode_ne_addressOutOfRange _ (s.rs.advance 2) hs
  case inr.inr.inr.inr.inr.inr.inr => exact nofun
  all_goals exact hs

/-- Settles O10: the two fetch faults, and the effects, of which an LS instruction's leaves the RS core alone. -/
theorem addressFaultsComeFromFetch : Obligations.AddressFaultsComeFromFetch := by
  refine ⟨opcodeFetchFaults, operandFetchFaults, fun i s t hsp h hs => ?_⟩
  cases hc : i.core with
  | rs => exact exec_rs_faultCode_ne_addressOutOfRange i s t hc hsp h hs
  | ls => rwa [(exec_ls_outside i s t hc h).2]

/-! ### How a run has ended, by the selected core's record -/

theorem State.faulted_iff_of_rs (t : State) (hsel : t.sel = .rs) (hend : t.isRunning = false) :
    t.faulted = true ↔ t.rs.faultCode ≠ .none := by
  simp [State.faulted, State.ended, hsel, hend]

theorem State.endedNormally_iff_of_rs (t : State) (hsel : t.sel = .rs) (hend : t.isRunning = false) :
    t.endedNormally = true ↔ t.rs.faultCode = .none := by
  simp [State.endedNormally, State.faulted, State.ended, hsel, hend]

/-- The LS core has no record, so every end of its run is normal (R206). -/
theorem State.endedNormally_of_ls (t : State) (hsel : t.sel = .ls) (hend : t.isRunning = false) :
    t.endedNormally = true := by
  simp [State.endedNormally, State.faulted, State.ended, hsel, hend]

/-! ### The step that ends an RS run -/

/-- A running RS core has an empty record (R26). -/
theorem RsState.Inv.faultCode_of_running {s : RsState} (hs : s.Inv) (hrun : s.running = true) : s.faultCode = .none := by
  by_contra hf
  exact absurd (hs.faultStops hf) (by simp [hrun])

/-- The cells the next instruction may take start with the cell at `pc`, where `pc` is in memory (R121). -/
theorem RsState.opcode_of_fetchCells (s : RsState) (op : Word) (rest : List Word) (h : s.fetchCells = op :: rest) :
    s.pc.toNat < 1024 ∧ s.mem.read s.pc.toNat = op := by
  rcases Nat.lt_or_ge s.pc.toNat 1024 with hin | hout
  · exact ⟨hin, List.head_eq_of_cons_eq ((RsState.cellsFrom_in s 3 s.pc hin).symm.trans h)⟩
  · exact absurd ((RsState.cellsFrom_out s maxLength s.pc hout).symm.trans h) nofun

/-- A run that ends with an empty record has executed the HLT whose cell is at `pc` (R151, R207): the fetch's end is a fault, and
of the instructions only HLT stops without one. -/
theorem hlt_at_pc_of_step_rs_stops (s t : State) (hsel : s.sel = .rs) (hrun : s.rs.running = true)
    (h : step s = .next t) (hstop : t.rs.running = false) (hnone : t.rs.faultCode = .none) :
    s.rs.pc.toNat < 1024 ∧ s.rs.mem.read s.rs.pc.toNat = opcHlt := by
  cases hd : decode .rs s.rs.fetchCells with
  | error e =>
    cases (step_rs_of_decode_error s e hsel hrun hd).symm.trans h
    cases hnone
  | ok p =>
    obtain ⟨i, rest⟩ := p
    obtain ⟨-, hc, hcells⟩ := encodeOfDecodeGivesCells .rs s.rs.fetchCells rest i hd
    have hexec : exec i s = .next t := (step_rs_of_decode_ok s i rest hsel hrun hd).symm.trans h
    obtain rfl : i = .hlt := eq_hlt_of_exec_rs_stops i s t hc hrun hexec hstop hnone
    exact RsState.opcode_of_fetchCells s.rs opcHlt rest hcells.symm

/-- A HLT cell at `pc` is the instruction of the step, whatever follows it (R98, R127). -/
theorem step_of_hlt_at_pc (s : State) (hsel : s.sel = .rs) (hrun : s.rs.running = true)
    (hpc : s.rs.pc.toNat < 1024) (hcell : s.rs.mem.read s.rs.pc.toNat = opcHlt) :
    step s = .next { s with rs := (s.rs.advance 1).halt } :=
  (encodedCellsRunAsTheirInstruction .hlt rfl).1 rfl s hsel hrun hpc (by simp [encode, Memory.holds, hcell])

/-! ### The step that ends an LS run -/

/-- Of the LS instructions only the zero sentinel stops the core (R178). -/
theorem eq_sentinel_of_exec_ls_stops (i : Instr) (s t : State) (hc : i.core = .ls) (hrun : s.ls.running = true)
    (h : exec i s = .next t) (hstop : t.ls.running = false) : i = .sentinel := by
  rcases exec_ls_cases i s t hc h with ⟨w, -, ht⟩ | ⟨hi, -⟩ | ⟨src, dst, imm, -, ht⟩ | ⟨w, -, ht⟩
  case inr.inl => exact hi
  all_goals simp [ht, hrun] at hstop

/-- The sentinel is the word 0 and no other (R104, R106). -/
theorem eq_zero_of_decodeLs_eq_sentinel (w : Word) (h : decodeLs w = .sentinel) : w = 0 := by
  obtain ⟨-, hword⟩ := encode_of_decodeLs w
  rw [h] at hword
  exact (List.head_eq_of_cons_eq hword).symm

/-- An LS run ends past the end of memory or at the zero word (R176, R178). -/
theorem zero_or_past_end_of_step_ls_stops (s t : State) (hsel : s.sel = .ls) (hrun : s.ls.running = true)
    (h : step s = .next t) (hstop : t.ls.running = false) :
    16384 ≤ s.ls.pc.toNat ∨ s.ls.mem.read (s.ls.pc.toNat / 4) = 0 := by
  rcases Nat.lt_or_ge s.ls.pc.toNat 16384 with hin | hout
  · have hexec := (step_ls_in_memory s hsel hrun hin).symm.trans h
    have hword := eq_sentinel_of_exec_ls_stops _ s t (decodeLs_core _) hrun hexec hstop
    exact .inr (s.ls.fetchWord_eq ▸ eq_zero_of_decodeLs_eq_sentinel _ hword)
  · exact .inl hout

/-! ### The ends of a run -/

/-- Settles O44: the record at the end tells the two ends of an RS run apart, and it is empty exactly after a HLT. -/
theorem runEndsNormallyOrByFault : Obligations.RunEndsNormallyOrByFault := by
  intro s t hinv hrunning h hend
  have hkept : t.sel = s.sel := (step_outside_selected s t h).1
  refine ⟨fun hsel => ?_, fun hsel => ?_⟩
  · have htsel : t.sel = .rs := hkept.trans hsel
    have hrun : s.rs.running = true := by simpa [State.isRunning, hsel] using hrunning
    have hstop : t.rs.running = false := by simpa [State.isRunning, htsel] using hend
    refine ⟨(t.endedNormally_iff_of_rs htsel hend).trans ⟨?_, ?_⟩, t.faulted_iff_of_rs htsel hend⟩
    · exact hlt_at_pc_of_step_rs_stops s t hsel hrun h hstop
    · rintro ⟨hpc, hcell⟩
      cases (step_of_hlt_at_pc s hsel hrun hpc hcell).symm.trans h
      exact hinv.rs.faultCode_of_running hrun
  · have htsel : t.sel = .ls := hkept.trans hsel
    have hrun : s.ls.running = true := by simpa [State.isRunning, hsel] using hrunning
    have hstop : t.ls.running = false := by simpa [State.isRunning, htsel] using hend
    exact ⟨t.endedNormally_of_ls htsel hend, zero_or_past_end_of_step_ls_stops s t hsel hrun h hstop⟩

end Sys2Proof.Machine

/-! # Proofs: reset, start and construction (70_reset_and_hazards)

`reset` and `start` act on the selected core alone: each is its core's own update, put back into the state. A constructed core
has the registers that `reset` gives, and it does not run, so a step leaves it as it is (R175). -/

namespace Sys2Proof.Machine

/-! ### The update of the selected core, and nothing else -/

theorem State.hostReset_eq_of_rs (s : State) (hsel : s.sel = .rs) : s.hostReset = { s with rs := s.rs.hostReset } := by
  simp [State.hostReset, hsel]

theorem State.hostReset_eq_of_ls (s : State) (hsel : s.sel = .ls) : s.hostReset = { s with ls := s.ls.hostReset } := by
  simp [State.hostReset, hsel]

theorem State.start_eq_of_rs (s : State) (hsel : s.sel = .rs) : s.start = { s with rs := s.rs.start } := by
  simp [State.start, hsel]

theorem State.start_eq_of_ls (s : State) (hsel : s.sel = .ls) : s.start = { s with ls := s.ls.start } := by
  simp [State.start, hsel]

@[simp] theorem RsState.faultRecord_hostReset (s : RsState) : s.hostReset.faultRecord = (.none, 0, 0) := rfl
@[simp] theorem RsState.faultRecord_start (s : RsState) : s.start.faultRecord = (.none, 0, 0) := rfl

/-- `start` does not touch the registers, the stack pointer or the memory (R233). -/
theorem RsState.start_sameData (s : RsState) : s.SameData s.start where
  x := s.start_x
  sp := s.start_sp
  mem _ := by rw [RsState.start_mem]

/-! ### reset and start -/

/-- Settles O45: `reset` is the selected core's own reset, which lists every field but the memory (R231, R232). -/
theorem hostResetSetsEveryField : Obligations.HostResetSetsEveryField := by
  refine ⟨fun s hsel => ?_, fun s hsel => ?_⟩
  · rw [s.hostReset_eq_of_rs hsel]
    exact ⟨⟨rfl, rfl⟩, fun i => s.rs.reg_hostReset i, s.rs.hostReset_pc, s.rs.hostReset_sp, s.rs.hostReset_running,
      s.rs.hostReset_runState, s.rs.faultRecord_hostReset, s.rs.hostReset_mem⟩
  · rw [s.hostReset_eq_of_ls hsel]
    exact ⟨⟨rfl, rfl⟩, fun r => s.ls.reg_hostReset r, s.ls.hostReset_pc, s.ls.hostReset_running, s.ls.hostReset_runState,
      s.ls.hostReset_mem⟩

/-- Settles O46: `start` is the selected core's own restart, which sets `pc`, the flags and the record alone (R233). -/
theorem startKeepsRegistersMemoryAndStack : Obligations.StartKeepsRegistersMemoryAndStack := by
  refine ⟨fun s hsel => ?_, fun s hsel => ?_⟩
  · rw [s.start_eq_of_rs hsel]
    exact ⟨⟨rfl, rfl⟩, s.rs.start_sameData, s.rs.start_pc, s.rs.start_running, s.rs.start_runState,
      s.rs.faultRecord_start⟩
  · rw [s.start_eq_of_ls hsel]
    exact ⟨⟨rfl, rfl⟩, s.ls.start_x, s.ls.start_mem, s.ls.start_pc, s.ls.start_running, s.ls.start_runState⟩

/-! ### Construction -/

/-- The registers of a constructed core are those `reset` gives (R230, R231). -/
theorem RsState.reg_constructed (i : Fin Config.rsNReg) : RsState.constructed.reg i = 0 :=
  RsState.reg_hostReset i .constructed

/-- The registers of a constructed core are those `reset` gives (R230, R232). -/
theorem LsState.reg_constructed (r : BitVec 5) : LsState.constructed.reg r = 0 :=
  LsState.reg_hostReset r .constructed

/-- Neither instance runs after construction, whichever is selected (R230). -/
theorem Session.isRunning_construct (c : CoreKind) : (Session.construct c).core.isRunning = false := by
  cases c <;> rfl

/-- Settles O47: a constructed core does not run, so its step is none; the other values are those of R230. -/
theorem constructedCoreIsIdleAndZero : Obligations.ConstructedCoreIsIdleAndZero := by
  intro c
  have hstopped := Session.isRunning_construct c
  exact ⟨hstopped, step_of_not_running _ hstopped, State.read_memory_constructed c, RsState.reg_constructed,
    LsState.reg_constructed, rfl, rfl, rfl, rfl, rfl, rfl⟩

end Sys2Proof.Machine
